-- ==== Sys2Proof/Word.lean ====
section
/-! DEFINITION. Word.lean: the two word types of the hardware (00_scope.md R8). -/

namespace Sys2Proof

/-- An 8-bit unsigned value: a register A, X, Y, P, an opcode byte or an operand byte (R8). -/
abbrev Byte := BitVec 8

/-- A 16-bit unsigned value: PC (an offset into the program image) and SP (R8). -/
abbrev Offset := BitVec 16

end Sys2Proof
end

