-- ==== Sys2Proof/Config.lean ====
section
/-! DEFINITION. Config.lean: what is fixed for the machine.
The hardware has no implementation-specific value and no free value (93_implementation_defined.md section 2);
the only bound is the spec's own limit on the image length. -/

namespace Sys2Proof

/-- The longest program image START accepts (00_scope.md R9, 20_memory.md R63, decision D2). -/
def Config.maxImageLength : Nat := 65535

end Sys2Proof
end

