-- ==== Sys2Proof/Machine/State.lean ====
section
/-! DEFINITION. Machine/State.lean: everything the spec gives the machine, as plain data, and its value after RESET.
The tuple (A, X, Y, PC, SP, P, RS, FR) of 10_state.md R20 with the bound image of R33. -/

namespace Sys2Proof.Machine

/-- The run state RS (10_state.md R32). -/
inductive RunState where
  /-- Idle after RESET, or the run returned normally after BRK. -/
  | halted
  /-- Between START and the end of the run: the only state in which a STEP is enabled. -/
  | running
  /-- The run ended by a fatal failure. -/
  | faulted
deriving DecidableEq, Repr

/-- The two fatal failures of the hardware and what FR records of them (10_state.md R34, 60_exceptions.md R140). -/
inductive FaultRecord where
  /-- F1: a fetch at an offset where the image holds nothing; the offset is PC at that moment. -/
  | outOfBounds (offset : Offset)
  /-- F2: the opcode byte has no handler; the byte and the offset it was fetched from. -/
  | unimplementedOpcode (opcode : Byte) (offset : Offset)
deriving DecidableEq, Repr

/-- A program image as address and byte pairs. An offset that is not listed holds no byte at all (20_memory.md R56). -/
abbrev Memory := List Host.Cell

/-- The complete state of one Processor (10_state.md R20) and the image it runs (R33). -/
structure State where
  /-- `accumulator` (R21). -/
  a : Byte
  /-- `index_x` (R22). -/
  x : Byte
  /-- `index_y` (R23). -/
  y : Byte
  /-- `program_counter`: the offset of the next byte to fetch (R25). -/
  pc : Offset
  /-- `stack_pointer` (R28). -/
  sp : Offset
  /-- `status_flags`: bit 1 Zero, bit 7 Negative, six reserved storage bits (R29). -/
  p : Byte
  /-- The run state RS (R32). -/
  rs : RunState
  /-- The fault record FR (R34). -/
  fr : Option FaultRecord
  /-- The bound image (R33); `none` where no run goes on: after RESET (Table R36) and once a run has ended
  (70_reset_and_hazards.md R175). DESIGN CHOICE, log 4: held in State. -/
  image : Option Memory
deriving DecidableEq, Repr

/-- A fresh Processor: every value of Table R36. -/
def State.reset : State where
  a := 0x00#8
  x := 0x00#8
  y := 0x00#8
  pc := 0x0000#16
  sp := 0x0000#16
  p := 0x00#8
  rs := .halted
  fr := none
  image := none

/-- Why a step answers no next state although the spec defines the situation. The hardware's own two faults are NOT
here: they are taken, as next states with `rs = faulted` (60_exceptions.md R144). -/
inductive Fault where
  /-- Raised by `step` when RS is not RUNNING: no STEP is enabled and the core does nothing (R92). Safe: the model
  stops exactly where the spec has no transition. -/
  | notRunning (rs : RunState)
deriving DecidableEq, Repr

/-- What the model gives no meaning, because the spec says it has none. -/
inductive Refusal where
  /-- Raised by `exec` for an instruction without a meaning yet; no arm uses it. Safe. -/
  | notModelled (mnemonic : String)
  /-- Raised by `fetch` where PC + 1 would be computed at PC = 65535, which the spec forbids a model to define
  (10_state.md R27, D3). Safe; no state that meets `State.Inv` reaches it. -/
  | pcAdvanceUndefined
  /-- Raised by START for an image longer than 65535 bytes (20_memory.md R63, D2). Safe. -/
  | imageTooLong
  /-- Raised by START when RS is not HALTED (40_fetch_dispatch_flags.md R91, 60_exceptions.md R150). Safe. -/
  | startNotEnabled (rs : RunState)
  /-- Raised by a host read while RUNNING and by a host write while RUNNING or FAULTED (10_state.md R39). Safe. -/
  | hostAccessDenied (rs : RunState)
deriving DecidableEq, Repr

end Sys2Proof.Machine
end

