-- ==== Sys2Proof/Machine/Flags.lean ====
section
/-! DEFINITION. Machine/Flags.lean: the status register's fields and the flag updater (10_state.md R29 to R31, R35;
40_fetch_dispatch_flags.md R97). -/

namespace Sys2Proof.Machine

/-- The Zero flag, bit 1 of P (R30). -/
def zeroFlag (p : Byte) : Bool := p.getLsbD 1

/-- The Negative flag, bit 7 of P (R31). -/
def negativeFlag (p : Byte) : Bool := p.getLsbD 7

/-- The mask of the six reserved bits of P (R35). -/
def reservedMask : Byte := 0x7D#8

/-- The six reserved bits of P, the two flags masked out (R35). -/
def reservedBits (p : Byte) : Byte := p &&& reservedMask

/-- `UpdateZN(v)` on a prior P, as R97 writes it on bytes. -/
def updateZN (v p : Byte) : Byte :=
  (p &&& reservedMask) ||| (if v = 0x00#8 then 0x02#8 else 0x00#8) ||| (v &&& 0x80#8)

end Sys2Proof.Machine
end

