-- ==== Sys2Proof/Machine/Memory.lean ====
section
/-! DEFINITION. Machine/Memory.lean: the program space (20_memory.md section 1): reading one byte of an image, building
an image from the host's byte sequence, and the canonical form. The core never writes the image (R51, R61). -/

namespace Sys2Proof.Machine

/-- What an offset that the image does not list holds: nothing (R56), so that an access to it is OutOfBounds
(DESIGN CHOICE, log 10). -/
def Memory.unlisted : Option Byte := none

/-- The byte at an offset of the image. -/
def Memory.read : Memory → Nat → Option Byte
  | [], _ => Memory.unlisted
  | (a, b) :: rest, addr => if addr = a then some b else Memory.read rest addr

/-- A byte sequence as cells at `start`, `start + 1`, ... -/
def Memory.ofBytesFrom (start : Nat) : List Byte → Memory
  | [] => []
  | b :: bs => (start, b) :: Memory.ofBytesFrom (start + 1) bs

/-- The image of a byte sequence: byte `i` of the sequence at offset `i`, counted from 0 (R50). -/
def Memory.ofBytes (prog : List Byte) : Memory := Memory.ofBytesFrom 0 prog

/-- The bytes of an image in stream order (R54). -/
def Memory.bytes (m : Memory) : List Byte := m.map Prod.snd

/-- The cells stand at `start`, `start + 1`, ... with no gap: the one canonical form of an image from `start` on. -/
def Memory.wfFrom (start : Nat) : Memory → Bool
  | [] => true
  | (a, _) :: rest => a == start && Memory.wfFrom (start + 1) rest

/-- The canonical form of a whole image: offsets 0, 1, ..., L-1, strictly rising and without a gap, and L <= 65535
(R50, R63). No entry can equal what an unlisted offset reads as, since that is no byte. -/
def Memory.wf (m : Memory) : Bool :=
  Memory.wfFrom 0 m && decide (m.length ≤ Config.maxImageLength)

/-- L, the length of the bound image; 0 when none is bound. -/
def State.imageLength (s : State) : Nat :=
  match s.image with
  | none => 0
  | some m => m.length

/-- The byte of the bound image at an offset, if there is one. -/
def State.imageByte (s : State) (addr : Nat) : Option Byte :=
  match s.image with
  | none => Memory.unlisted
  | some m => m.read addr

/-- The bytes of the bound image from an offset on, in stream order (R54). -/
def State.bytesFrom (s : State) (start : Nat) : List Byte :=
  match s.image with
  | none => []
  | some m => m.bytes.drop start

/-- The bound image, where there is one, has its canonical form. -/
def State.imageWf (s : State) : Bool :=
  match s.image with
  | none => true
  | some m => m.wf

end Sys2Proof.Machine
end

