-- ==== Sys2Proof/Machine/Ops.lean ====
section
/-! DEFINITION. Machine/Ops.lean: the named operations over registers and memory that every instruction shares: register
writes, the flag update on the state, MemRead, Fetch, fault entry, the body of START, and the release of the image at the
end of a run. -/

namespace Sys2Proof.Machine

/-- `A <- v`. -/
def State.setA (s : State) (v : Byte) : State := { s with a := v }

/-- `X <- v`. -/
def State.setX (s : State) (v : Byte) : State := { s with x := v }

/-- `PC <- v`. -/
def State.setPc (s : State) (v : Offset) : State := { s with pc := v }

/-- `RS <- r`. -/
def State.setRs (s : State) (r : RunState) : State := { s with rs := r }

/-- `UpdateZN(v)` on the state: P and nothing else (40_fetch_dispatch_flags.md R97, R98). -/
def State.flagsFrom (s : State) (v : Byte) : State := { s with p := updateZN v s.p }

/-- Fault entry (60_exceptions.md R144): FR and RS are written, and nothing else. Nothing is saved and control goes
nowhere; the run has ended abnormally (DEDUCED, log 11). -/
def State.takeFault (s : State) (f : FaultRecord) : State := { s with fr := some f, rs := .faulted }

/-- The body of START (40_fetch_dispatch_flags.md R91): bind the image, `PC <- 0`, `RS <- RUNNING`, and
not FR (DEDUCED, log 9). -/
def State.bindAndRun (s : State) (prog : List Byte) : State :=
  { s with image := some (Memory.ofBytes prog), pc := 0x0000#16, rs := .running }

/-- No image bound: what RESET leaves, and what is left of the image once a run has ended
(70_reset_and_hazards.md R170, R175). -/
def State.releaseImage (s : State) : State := { s with image := none }

/-- The core keeps no reference to the image once the run has ended (70_reset_and_hazards.md R175): the image goes in the
first state whose RS is not RUNNING (40_fetch_dispatch_flags.md R104). -/
def State.atEndOfRun (s : State) : State :=
  match s.rs with
  | .running => s
  | .halted => s.releaseImage
  | .faulted => s.releaseImage

/-- `MemRead(addr, 1)` (20_memory.md R52). An image in its canonical form lists every offset below L, so the last case
is met by no such image; it raises the same fault. -/
def State.memRead (s : State) (addr : Offset) : Except FaultRecord Byte :=
  if s.imageLength ≤ addr.toNat then .error (.outOfBounds addr)
  else
    match s.imageByte addr.toNat with
    | some b => .ok b
    | none => .error (.outOfBounds addr)

/-- What reading from the instruction stream comes to: a value and the state after it, a fault raised at the state as it
then stands, or a refusal. -/
inductive Fetched (α : Type) where
  | got (v : α) (s : State)
  | raised (f : FaultRecord) (s : State)
  | refused (r : Refusal)
deriving DecidableEq, Repr

/-- Go on with what was fetched; a raise ends the step at that point (00_scope.md R14). -/
def Fetched.andThen {α β : Type} (r : Fetched α) (k : α → State → Fetched β) : Fetched β :=
  match r with
  | .got v s => k v s
  | .raised f s => .raised f s
  | .refused why => .refused why

/-- `Fetch()` (40_fetch_dispatch_flags.md R93): the bounds check comes before the advance, so PC is unchanged when it
raises. `PC + 1` at 65535 is refused and not computed (10_state.md R27; DEDUCED, log 5). -/
def State.fetch (s : State) : Fetched Byte :=
  match s.memRead s.pc with
  | .error f => .raised f s
  | .ok b => if s.pc = 0xFFFF#16 then .refused .pcAdvanceUndefined else .got b (s.setPc (s.pc + 1#16))

end Sys2Proof.Machine
end

