-- ==== Sys2Proof/Machine/Halt.lean ====
section
/-! DEFINITION. Machine/Halt.lean: program termination, BRK (41_brk_halt.md). -/

namespace Sys2Proof.Machine

/-- `BRK`: `RS <- HALTED`. Nothing is pushed, no vector is read, no flag is set (R110, R111). -/
def execBrk (s : State) : Host.Outcome State Fault Refusal := .next (s.setRs .halted)

end Sys2Proof.Machine
end

