-- ==== Sys2Proof/Machine/Alu.lean ====
section
/-! DEFINITION. Machine/Alu.lean: the three operations of the ALU (40_fetch_dispatch_flags.md Table R100). None has a
carry in, a carry out or an overflow output. -/

namespace Sys2Proof.Machine

/-- Load: pass the operand. -/
def aluLoad (imm8 : Byte) : Byte := imm8

/-- Transfer: pass the register. -/
def aluTransfer (v : Byte) : Byte := v

/-- Increment: `(v + 1) mod 256`, the overflow discarded (44_inx_increment.md R127). -/
def aluIncrement (v : Byte) : Byte := v + 1#8

end Sys2Proof.Machine
end

