-- ==== Sys2Proof/Machine/Increment.lean ====
section
/-! DEFINITION. Machine/Increment.lean: increment with wraparound, INX (44_inx_increment.md). -/

namespace Sys2Proof.Machine

/-- `INX`: `X <- (X + 1) mod 256`, then `UpdateZN(X)` from the new X (R125, R99). -/
def execInx (s : State) : Host.Outcome State Fault Refusal :=
  let written := s.setX (aluIncrement s.x)
  .next (written.flagsFrom written.x)

end Sys2Proof.Machine
end

