-- ==== Sys2Proof/Machine/Load.lean ====
section
/-! DEFINITION. Machine/Load.lean: immediate load, LDA (42_lda_load_immediate.md). -/

namespace Sys2Proof.Machine

/-- `LDA #imm8`, its operand already fetched: `A <- imm8`, then `UpdateZN(A)` from the new A (R115, R99). -/
def execLda (imm8 : Byte) (s : State) : Host.Outcome State Fault Refusal :=
  let written := s.setA (aluLoad imm8)
  .next (written.flagsFrom written.a)

end Sys2Proof.Machine
end

