-- ==== Sys2Proof/Machine/Transfer.lean ====
section
/-! DEFINITION. Machine/Transfer.lean: register transfer, TAX (43_tax_transfer.md). -/

namespace Sys2Proof.Machine

/-- `TAX`: `X <- A`, then `UpdateZN(A)`, the source register (R120, R99; conflict C4, decision D5). -/
def execTax (s : State) : Host.Outcome State Fault Refusal :=
  let written := s.setX (aluTransfer s.a)
  .next (written.flagsFrom written.a)

end Sys2Proof.Machine
end

