-- ==== Sys2Proof/Machine/Unimplemented.lean ====
section
/-! DEFINITION. Machine/Unimplemented.lean: the dispatcher's catch-all (45_unimplemented_opcodes.md). -/

namespace Sys2Proof.Machine

/-- Any other opcode byte `b`, already fetched: `raise UnimplementedOpcode(b, PC - 1)` (R94, R130), which is taken as the
fault entry of R144. PC is at least 1 here, since the byte was fetched (DESIGN CHOICE, log 6). -/
def execUnimplemented (b : Byte) (s : State) : Host.Outcome State Fault Refusal :=
  .next (s.takeFault (.unimplementedOpcode b (s.pc - 1#16)))

end Sys2Proof.Machine
end

