-- ==== Sys2Proof/Syntax.lean ====
section
/-! DEFINITION. Syntax.lean: the instructions, one constructor per row of spec/opcode_table.json. -/

namespace Sys2Proof

/-- An instruction with its operand (30_encoding.md R75, R83). The fallback row of the table is a
constructor too: the byte it carries is the opcode byte that was fetched. -/
inductive Instr where
  /-- `BRK`, 0x00: halt the run (R110). -/
  | brk
  /-- `LDA #imm8`, 0xA9: load the accumulator with the immediate byte (R115). -/
  | lda (imm8 : Byte)
  /-- `TAX`, 0xAA: copy the accumulator into index_x (R120). -/
  | tax
  /-- `INX`, 0xE8: add one to index_x, modulo 256 (R125). -/
  | inx
  /-- Any other opcode byte: the fatal failure UnimplementedOpcode (R130). -/
  | unimplemented (opcode : Byte)
deriving DecidableEq, Repr

end Sys2Proof
end

