-- ==== Sys2Proof/Machine/Dispatch.lean ====
section
/-! DEFINITION. Machine/Dispatch.lean: the dispatcher (40_fetch_dispatch_flags.md R95), one arm per constructor of Instr.
`exec i s` is the handler of `i` at a state whose PC stands past the bytes of `i` (R94, R96; DESIGN CHOICE, log 7). -/

namespace Sys2Proof.Machine

def exec (i : Instr) (s : State) : Host.Outcome State Fault Refusal :=
  match i with
  | .brk => Sys2Proof.Machine.execBrk s
  | .lda imm8 => Sys2Proof.Machine.execLda imm8 s
  | .tax => Sys2Proof.Machine.execTax s
  | .inx => Sys2Proof.Machine.execInx s
  | .unimplemented b => Sys2Proof.Machine.execUnimplemented b s

end Sys2Proof.Machine
end

