-- ==== Sys2Proof/WellFormed.lean ====
section
/-! DEFINITION. WellFormed.lean: which terms of Instr stand for an instruction of the hardware. -/

namespace Sys2Proof

/-- The four implemented opcode byte values (30_encoding.md R75). -/
def implementedOpcodes : List Byte := [0x00#8, 0xA9#8, 0xAA#8, 0xE8#8]

/-- Every `imm8` is legal (R74); the catch-all carries only one of the 252 bytes of R77
(DESIGN CHOICE, log 14). -/
def Instr.wellFormed : Instr → Bool
  | .brk => true
  | .lda _ => true
  | .tax => true
  | .inx => true
  | .unimplemented b => !implementedOpcodes.contains b

end Sys2Proof
end

