-- ==== Sys2Proof/Decode.lean ====
section
/-! DEFINITION. Decode.lean: the opcode map, the decoder of a byte stream, the encoder, and the word layout of
spec/opcode_table.json (30_encoding.md). -/

namespace Sys2Proof

/-- The value of `decode(b)` of R76: which handler an opcode byte selects. -/
inductive Opcode where
  | brk
  | ldaImm
  | tax
  | inx
  | unimplemented (opcode : Byte)
deriving DecidableEq, Repr

/-- The opcode map, Table R75: all 8 bits are compared (R73) and the map is total (R76). -/
def decodeOpcode (b : Byte) : Opcode :=
  if b = 0x00#8 then .brk
  else if b = 0xA9#8 then .ldaImm
  else if b = 0xAA#8 then .tax
  else if b = 0xE8#8 then .inx
  else .unimplemented b

/-- Why a byte stream holds no instruction. No byte VALUE is undecodable (R76): only a missing byte stops the decoder. -/
inductive DecodeError where
  /-- The stream is empty: there is no opcode byte. -/
  | noOpcodeByte
  /-- The stream ends after a 0xA9 opcode: there is no operand byte. -/
  | noOperandByte
deriving DecidableEq, Repr

/-- Decode the first instruction of a byte stream, lowest offset first (R54, R70, R80), with the rest of the stream. -/
def decode : List Byte → Except DecodeError (Instr × List Byte)
  | [] => .error .noOpcodeByte
  | op :: rest =>
    match decodeOpcode op with
    | .brk => .ok (.brk, rest)
    | .ldaImm =>
      match rest with
      | [] => .error .noOperandByte
      | imm8 :: rest' => .ok (.lda imm8, rest')
    | .tax => .ok (.tax, rest)
    | .inx => .ok (.inx, rest)
    | .unimplemented b => .ok (.unimplemented b, rest)

/-- The bytes of an instruction, lowest offset first (Tables R71, R72, R75; R84). -/
def encode : Instr → List Byte
  | .brk => [0x00#8]
  | .lda imm8 => [0xA9#8, imm8]
  | .tax => [0xAA#8]
  | .inx => [0xE8#8]
  | .unimplemented b => [b]

/-- How many bytes the core consumes for an instruction (R70); one for an unimplemented opcode, which has no length. -/
def Instr.size : Instr → Nat
  | .brk => 1
  | .lda _ => 2
  | .tax => 1
  | .inx => 1
  | .unimplemented _ => 1

/-- A table word laid out as the image stores it: bits 7..0 at the lowest offset, bits 15..8 at the next (R54, R72),
every bit from `nbits` up being 0, two bytes because that is the longest instruction (R70). -/
def tableBytes (nbits w : Nat) : List Byte :=
  [BitVec.ofNat 8 (w % 2 ^ nbits), BitVec.ofNat 8 (w % 2 ^ nbits / 256)]

/-- The instruction this decoder reads from a word of spec/opcode_table.json. -/
def decodeTableWord (nbits w : Nat) : Option Instr :=
  match decode (tableBytes nbits w) with
  | .ok (i, _) => some i
  | .error _ => none

/-- A row of the machine-readable table (R83): a byte `b` selects it when `(b AND mask) == pattern`. -/
structure OpcodeRow where
  pattern : Byte
  mask : Byte
  opcode : Opcode
deriving DecidableEq, Repr

/-- The four instruction rows of spec/opcode_table.json (R83). -/
def opcodeRows : List OpcodeRow :=
  [⟨0x00#8, 0xFF#8, .brk⟩, ⟨0xA9#8, 0xFF#8, .ldaImm⟩, ⟨0xAA#8, 0xFF#8, .tax⟩, ⟨0xE8#8, 0xFF#8, .inx⟩]

/-- The decoder built from the table alone (R83): the first matching row, else the fallback row. -/
def decodeByTable (b : Byte) : Opcode :=
  match opcodeRows.find? (fun r => b &&& r.mask == r.pattern) with
  | some r => r.opcode
  | none => .unimplemented b

end Sys2Proof
end

