-- ==== Sys2Proof/Machine/Operands.lean ====
section
/-! DEFINITION. Machine/Operands.lean: the operand forms (30_encoding.md R71, R72, R74): format IMP has no operand byte,
format IMM fetches one. -/

namespace Sys2Proof.Machine

/-- Format IMM: the operand is the next byte, fetched like an opcode, whole and unextended (R74). -/
def State.fetchImmediate (s : State) (mk : Byte → Instr) : Fetched Instr :=
  s.fetch.andThen fun imm8 s' => .got (mk imm8) s'

/-- Format IMP: no operand byte; the registers are implied by the opcode (R71, R74). -/
def State.implied (s : State) (i : Instr) : Fetched Instr := .got i s

/-- The operand that an opcode asks for, fetched before its handler acts (40_fetch_dispatch_flags.md R96). Of an
unimplemented opcode no further byte is read (45_unimplemented_opcodes.md R130). -/
def State.fetchOperand (s : State) (op : Opcode) : Fetched Instr :=
  match op with
  | .brk => s.implied .brk
  | .ldaImm => s.fetchImmediate .lda
  | .tax => s.implied .tax
  | .inx => s.implied .inx
  | .unimplemented b => s.implied (.unimplemented b)

/-- Fetch an opcode byte, decode it, and fetch its operand: the fetch half of a STEP
(40_fetch_dispatch_flags.md R94). -/
def State.fetchInstr (s : State) : Fetched Instr :=
  s.fetch.andThen fun op s' => s'.fetchOperand (decodeOpcode op)

end Sys2Proof.Machine
end

