-- ==== Sys2Proof/Machine/Sequencer.lean ====
section
/-! DEFINITION. Machine/Sequencer.lean: one STEP, the fetch-decode-dispatch pass (40_fetch_dispatch_flags.md R92, R94). -/

namespace Sys2Proof.Machine

/-- What the fetch half of a STEP leads to: the handler of the instruction, or fault entry at the point of the raise. -/
def dispatchFetched (r : Fetched Instr) : Host.Outcome State Fault Refusal :=
  match r with
  | .got i s => exec i s
  | .raised f s => .next (s.takeFault f)
  | .refused why => .refused why

/-- A next state is left without an image where it ends the run (70_reset_and_hazards.md R175). -/
def releaseEnded (o : Host.Outcome State Fault Refusal) : Host.Outcome State Fault Refusal :=
  match o with
  | .next t => .next t.atEndOfRun
  | .fault r => .fault r
  | .refused r => .refused r

/-- One STEP. It is enabled only in RUNNING (R92); elsewhere the core has no step (DEDUCED, log 3). -/
def stepOnce (s : State) : Host.Outcome State Fault Refusal :=
  match s.rs with
  | .running => releaseEnded (dispatchFetched s.fetchInstr)
  | .halted => .fault (.notRunning .halted)
  | .faulted => .fault (.notRunning .faulted)

/-- The state in which the very next STEP runs the instruction of a table word: that instruction's bytes bound as the
image, at offset 0, and the core running, as START leaves it (R91; DESIGN CHOICE, log 1). -/
def loadTableWord (s : State) (nbits w : Nat) : State := s.bindAndRun (tableBytes nbits w)

end Sys2Proof.Machine
end

