-- ==== Sys2Proof/Machine/Step.lean ====
section
/-! DEFINITION. Machine/Step.lean: the step function of the host's interface, and where it fetches from. -/

namespace Sys2Proof.Machine

/-- One STEP of the machine (40_fetch_dispatch_flags.md R94). -/
def step (s : State) : Host.Outcome State Fault Refusal := stepOnce s

/-- The state with a table word's instruction where the next step fetches; stands for the host's START (DESIGN CHOICE, log 1). -/
def State.withFetchWord (s : State) (nbits w : Nat) : State := loadTableWord s nbits w

end Sys2Proof.Machine
end

