-- ==== Sys2Proof/Machine/Events.lean ====
section
/-! DEFINITION. Machine/Events.lean: what the host does to the Processor (RESET, START, register presets, read-back) and
the whole transition system of 00_scope.md R15, and a whole run (40_fetch_dispatch_flags.md R101). -/

namespace Sys2Proof.Machine

/-- A host write of one register, any value of its width (10_state.md R39). -/
inductive HostWrite where
  | a (v : Byte)
  | x (v : Byte)
  | y (v : Byte)
  | pc (v : Offset)
  | sp (v : Offset)
  | p (v : Byte)
deriving DecidableEq, Repr

/-- The state after a host write: that register and nothing else. -/
def State.preset (s : State) (w : HostWrite) : State :=
  match w with
  | .a v => { s with a := v }
  | .x v => { s with x := v }
  | .y v => { s with y := v }
  | .pc v => { s with pc := v }
  | .sp v => { s with sp := v }
  | .p v => { s with p := v }

/-- A host write: allowed in HALTED only (R39; DESIGN CHOICE, log 13). -/
def hostWrite (w : HostWrite) (s : State) : Host.Outcome State Fault Refusal :=
  match s.rs with
  | .halted => .next (s.preset w)
  | .running => .refused (.hostAccessDenied .running)
  | .faulted => .refused (.hostAccessDenied .faulted)

/-- The fields the host reads: every field of the state tuple (R20, R39). -/
structure HostView where
  a : Byte
  x : Byte
  y : Byte
  pc : Offset
  sp : Offset
  p : Byte
  rs : RunState
  fr : Option FaultRecord
deriving DecidableEq, Repr

/-- The state tuple of R20, without the image. -/
def State.view (s : State) : HostView := ⟨s.a, s.x, s.y, s.pc, s.sp, s.p, s.rs, s.fr⟩

/-- A host read of the fields: allowed in HALTED and in FAULTED (R39). -/
def hostRead (s : State) : Except Refusal HostView :=
  match s.rs with
  | .halted => .ok s.view
  | .faulted => .ok s.view
  | .running => .error (.hostAccessDenied .running)

/-- RESET, from every state: a fresh Processor (70_reset_and_hazards.md R170). -/
def hostReset (_ : State) : State := State.reset

/-- START(prog) (40_fetch_dispatch_flags.md R91): from HALTED only, and only an image of at most 65535 bytes
(DESIGN CHOICE, log 13). -/
def start (prog : List Byte) (s : State) : Host.Outcome State Fault Refusal :=
  match s.rs with
  | .halted =>
    if prog.length ≤ Config.maxImageLength then .next (s.bindAndRun prog) else .refused .imageTooLong
  | .running => .refused (.startNotEnabled .running)
  | .faulted => .refused (.startNotEnabled .faulted)

/-- Everything that can move the machine: the three transitions of R15 and the host's register writes of R39
(DESIGN CHOICE, log 2; DEDUCED, log 12). -/
inductive Event where
  | reset
  | start (prog : List Byte)
  | step
  | write (w : HostWrite)
deriving DecidableEq, Repr

/-- The transition system of the hardware. -/
def transition (e : Event) (s : State) : Host.Outcome State Fault Refusal :=
  match e with
  | .reset => .next (hostReset s)
  | .start prog => start prog s
  | .step => step s
  | .write w => hostWrite w s

/-- STEPs while RS is RUNNING, at most `n` of them. -/
def runToEnd : Nat → State → Host.Outcome State Fault Refusal
  | 0, s => .next s
  | n + 1, s =>
    match s.rs with
    | .running =>
      match step s with
      | .next t => runToEnd n t
      | .fault r => .fault r
      | .refused r => .refused r
    | .halted => .next s
    | .faulted => .next s

/-- `interpret(prog)`: one whole run, START and then STEPs to its end, of which L + 1 are always enough
(00_scope.md R15, R101; DEDUCED, log 8). -/
def interpret (prog : List Byte) (s : State) : Host.Outcome State Fault Refusal :=
  match start prog s with
  | .next t => runToEnd (prog.length + 1) t
  | .fault r => .fault r
  | .refused r => .refused r

end Sys2Proof.Machine
end

