-- ==== Sys2Proof/Safety.lean ====
section
/-! DEFINITION. Safety.lean: the terms in which claims about the machine are stated: the invariant of its states, what a
normal end is, and the straight line of instructions that a run executes. -/

namespace Sys2Proof

/-- Is it an LDA? -/
def Instr.isLda : Instr → Bool
  | .lda _ => true
  | .brk => false
  | .tax => false
  | .inx => false
  | .unimplemented _ => false

end Sys2Proof

namespace Sys2Proof.Machine

/-- While a run goes on an image is bound and PC is at most L (10_state.md R27; 40_fetch_dispatch_flags.md R93); where none
goes on, none is bound (10_state.md R36; 70_reset_and_hazards.md R175), and in HALTED the host may have put any value into
PC (10_state.md R39). -/
def State.pcInImage (s : State) : Bool :=
  match s.rs with
  | .running => s.image.isSome && decide (s.pc.toNat ≤ s.imageLength)
  | .halted => s.image.isNone
  | .faulted => s.image.isNone

/-- FR is none unless RS is FAULTED (10_state.md R34), and then holds what Table R140 records: for OutOfBounds, PC; for
UnimplementedOpcode, a byte without a handler and the offset before PC. -/
def State.faultRecordOk (s : State) : Bool :=
  match s.rs, s.fr with
  | .faulted, some (.outOfBounds o) => o == s.pc
  | .faulted, some (.unimplementedOpcode b o) =>
    !implementedOpcodes.contains b && o.toNat + 1 == s.pc.toNat
  | .faulted, none => false
  | .halted, none => true
  | .running, none => true
  | .halted, some _ => false
  | .running, some _ => false

/-- The invariant of the machine's states: it holds after RESET, and every event keeps it. -/
abbrev State.Inv (s : State) : Prop :=
  s.imageWf = true ∧ s.pcInImage = true ∧ s.faultRecordOk = true

/-- A STEP is enabled and the byte it fetches as its opcode is `b`. -/
abbrev State.atOpcode (s : State) (b : Byte) : Prop :=
  s.rs = .running ∧ s.imageByte s.pc.toNat = some b

/-- A normal end of a run: it returned after BRK (40_fetch_dispatch_flags.md R104). A FAULTED state is never one
(60_exceptions.md R146). -/
abbrev State.normalEnd (s : State) : Prop := s.rs = .halted

/-- Condition (3) of 70_reset_and_hazards.md R173: decoding from the first byte, instruction by instruction, a BRK opcode
is reached before any unimplemented opcode and before the end, and no LDA opcode is the last byte. -/
def reachesBrk : List Byte → Bool
  | [] => false
  | op :: rest =>
    match decodeOpcode op with
    | .brk => true
    | .ldaImm =>
      match rest with
      | [] => false
      | _ :: rest' => reachesBrk rest'
    | .tax => reachesBrk rest
    | .inx => reachesBrk rest
    | .unimplemented _ => false

/-- The instructions that complete in a run on these bytes, up to and including the BRK that halts it. -/
def executed : List Byte → List Instr
  | [] => []
  | op :: rest =>
    match decodeOpcode op with
    | .brk => [.brk]
    | .ldaImm =>
      match rest with
      | [] => []
      | imm8 :: rest' => .lda imm8 :: executed rest'
    | .tax => .tax :: executed rest
    | .inx => .inx :: executed rest
    | .unimplemented _ => []

/-- Two states differ in Y and SP at most. -/
def State.withYSp (s : State) (y : Byte) (sp : Offset) : State := { s with y := y, sp := sp }

/-- Two states differ in P at most. -/
def State.withP (s : State) (p : Byte) : State := { s with p := p }

end Sys2Proof.Machine
end

