-- ==== Sys2Proof/Certificates/Slice0/Obligations.lean ====
section
/-! DEFINITION. Certificates/Slice0/Obligations.lean: the statements about the machine, for the provers. -/

open Sys2Proof Sys2Proof.Machine

/-! ## Reset and the invariant -/

/-- RESET, from every state, leaves the values of Table R36 (70_reset_and_hazards.md R170), and starts nothing: in the
fresh Processor no STEP is enabled. -/
def Obligations.ResetGivesFreshProcessor : Prop :=
  ∀ s : State, ∃ t, transition .reset s = .next t ∧
    t.a = 0x00#8 ∧ t.x = 0x00#8 ∧ t.y = 0x00#8 ∧ t.pc = 0x0000#16 ∧ t.sp = 0x0000#16 ∧ t.p = 0x00#8 ∧
    t.rs = .halted ∧ t.fr = none ∧ t.image = none ∧ t = State.reset ∧
    ∀ u, step t ≠ .next u

/-- The invariant holds of the fresh Processor. -/
def Obligations.InvHoldsAtReset : Prop := State.reset.Inv

/-- Every STEP keeps the invariant: the image keeps its canonical form, an image is bound exactly while RUNNING, PC is
then at most L, and FR is none unless RS is FAULTED and then records what Table R140 says. -/
def Obligations.EveryStepKeepsInv : Prop :=
  ∀ s t : State, s.Inv → step s = .next t → t.Inv

/-- Every event of the host keeps the invariant: RESET, START of any image, and any register write. -/
def Obligations.HostEventsKeepInv : Prop :=
  ∀ (e : Event) (s t : State), e ≠ .step → s.Inv → transition e s = .next t → t.Inv

/-! ## Encoding -/

/-- Encoding and decoding round trip (30_encoding.md R84, a derivation of the spec), whatever bytes follow, for all
the instructions and the catch-all: decode inverts encode, encode inverts decode, and both are injective. -/
def Obligations.DecodeInvertsEncode : Prop :=
  encode .brk = [0x00#8] ∧ (∀ n, encode (.lda n) = [0xA9#8, n]) ∧ encode .tax = [0xAA#8] ∧ encode .inx = [0xE8#8] ∧
  (∀ (i : Instr) (rest : List Byte), i.wellFormed = true → decode (encode i ++ rest) = .ok (i, rest)) ∧
  (∀ (bs : List Byte) (i : Instr) (rest : List Byte), decode bs = .ok (i, rest) →
    i.wellFormed = true ∧ bs = encode i ++ rest) ∧
  (∀ i j : Instr, i.wellFormed = true → j.wellFormed = true → encode i = encode j → i = j)

/-- Words written out bit by bit from Table R75 decode to the instructions they stand for. -/
def Obligations.SpecWordsDecode : Prop :=
  decode [0b00000000#8] = .ok (.brk, []) ∧
  decode [0b10101001#8, 0b10110010#8] = .ok (.lda 0xB2#8, []) ∧
  decode [0b10101010#8] = .ok (.tax, []) ∧
  decode [0b11101000#8] = .ok (.inx, []) ∧
  decode [0b11101010#8] = .ok (.unimplemented 0xEA#8, []) ∧
  decode [0b10101001#8, 0b11101000#8, 0b00000000#8] = .ok (.lda 0xE8#8, [0b00000000#8])

/-- The opcode byte alone selects the outcome (30_encoding.md R76, a derivation of the spec): for every byte exactly
one of BRK, LDA_IMM, TAX, INX and Unimplemented of that byte, the last one for the byte ranges of R77 and for no other
byte. -/
def Obligations.OpcodeMapIsClosed : Prop :=
  ∀ b : Byte,
    (decodeOpcode b = .brk ↔ b = 0x00#8) ∧ (decodeOpcode b = .ldaImm ↔ b = 0xA9#8) ∧
    (decodeOpcode b = .tax ↔ b = 0xAA#8) ∧ (decodeOpcode b = .inx ↔ b = 0xE8#8) ∧
    (∀ c, decodeOpcode b = .unimplemented c ↔
      c = b ∧ (0x01 ≤ b.toNat ∧ b.toNat ≤ 0xA8 ∨ 0xAB ≤ b.toNat ∧ b.toNat ≤ 0xE7 ∨ 0xE9 ≤ b.toNat ∧ b.toNat ≤ 0xFF))

/-! ## Fetch, the STEP, and memory reads -/

/-- A STEP runs the decoded instruction (40_fetch_dispatch_flags.md R94; that the handler is entered with PC past the
operand too is the model's arrangement, DESIGN CHOICE, log 7): when the bytes at PC decode to `i`, the STEP is the
handler of `i` at the state with PC moved past the bytes of `i`; and what the STEP adds to the handler is that a next
state that ends the run holds no image any more (70_reset_and_hazards.md R175). -/
def Obligations.StepRunsDecodedInstruction : Prop :=
  (∀ (s : State) (i : Instr) (rest : List Byte), s.Inv → s.rs = .running →
    decode (s.bytesFrom s.pc.toNat) = .ok (i, rest) →
    step s = releaseEnded (exec i (s.setPc (s.pc + BitVec.ofNat 16 i.size)))) ∧
  (∀ t : State, releaseEnded (.next t) = .next (if t.rs = .running then t else { t with image := none })) ∧
  (∀ r, releaseEnded (.fault r) = .fault r) ∧ (∀ r, releaseEnded (.refused r) = .refused r)

/-- When the bytes at PC run out, the STEP faults (the values of PC are derivations of the spec, 60_exceptions.md
R145): with no opcode byte, OutOfBounds at PC; with no operand byte after 0xA9, OutOfBounds one further on, with PC
there. Nothing else changes, but that the run has ended and the image is released (70_reset_and_hazards.md R175). -/
def Obligations.StepFaultsWhenBytesRunOut : Prop :=
  ∀ s : State, s.Inv → s.rs = .running →
    (decode (s.bytesFrom s.pc.toNat) = .error .noOpcodeByte →
      step s = .next { s.takeFault (.outOfBounds s.pc) with image := none }) ∧
    (decode (s.bytesFrom s.pc.toNat) = .error .noOperandByte →
      step s = .next { (s.setPc (s.pc + 1#16)).takeFault (.outOfBounds (s.pc + 1#16)) with image := none })

/-- A STEP is enabled if and only if RS is RUNNING (40_fetch_dispatch_flags.md R92); in HALTED and FAULTED the core
has no step; and entering `interpret` leaves RS RUNNING. -/
def Obligations.StepEnabledIffRunning : Prop :=
  (∀ s : State, s.Inv → ((∃ t, step s = .next t) ↔ s.rs = .running)) ∧
  (∀ s t : State, s.rs = .halted ∨ s.rs = .faulted → step s ≠ .next t) ∧
  (∀ (prog : List Byte) (s t : State), start prog s = .next t → t.rs = .running)

/-- MemRead (20_memory.md R52): OutOfBounds at every offset from L on, L itself included, in every state; below L the
byte of the image at that offset, which after START is the byte of the host's sequence. No read goes unchecked: Fetch
at or past L raises. -/
def Obligations.MemReadIsBounded : Prop :=
  (∀ (s : State) (addr : Offset), s.imageLength ≤ addr.toNat → s.memRead addr = .error (.outOfBounds addr)) ∧
  (∀ (s : State) (addr : Offset), s.imageWf = true → addr.toNat < s.imageLength →
    ∃ b, s.imageByte addr.toNat = some b ∧ s.memRead addr = .ok b) ∧
  (∀ (prog : List Byte) (s t : State) (addr : Offset), start prog s = .next t →
    (prog.length ≤ addr.toNat → t.memRead addr = .error (.outOfBounds addr)) ∧
    (∀ h : addr.toNat < prog.length, t.memRead addr = .ok prog[addr.toNat])) ∧
  (∀ s : State, s.imageLength ≤ s.pc.toNat → s.fetch = .raised (.outOfBounds s.pc) s)

/-- Fetch (40_fetch_dispatch_flags.md R93): the byte at PC with PC one on and nothing else changed; or OutOfBounds at
PC with the state as it was, and then the offending offset is exactly L (a derivation of the spec). PC + 1 does not
overflow (10_state.md R27). -/
def Obligations.FetchReadsThenAdvances : Prop :=
  ∀ s : State, s.Inv → s.rs = .running →
    (∀ b, s.imageByte s.pc.toNat = some b →
      s.fetch = .got b (s.setPc (s.pc + 1#16)) ∧ (s.pc + 1#16).toNat = s.pc.toNat + 1) ∧
    (s.imageByte s.pc.toNat = none → s.fetch = .raised (.outOfBounds s.pc) s ∧ s.pc.toNat = s.imageLength)

/-! ## The flag updater -/

/-- UpdateZN (40_fetch_dispatch_flags.md R97): bit 1 becomes (v == 0), bit 7 becomes bit 7 of v, the other six bits
are unchanged; and as one expression on bytes. -/
def Obligations.UpdateZNRule : Prop :=
  ∀ v p : Byte,
    zeroFlag (updateZN v p) = decide (v = 0x00#8) ∧
    negativeFlag (updateZN v p) = v.getLsbD 7 ∧
    (∀ i : Nat, i ∈ [0, 2, 3, 4, 5, 6] → (updateZN v p).getLsbD i = p.getLsbD i) ∧
    updateZN v p = ((p &&& 0x7D#8) ||| (if v = 0x00#8 then 0x02#8 else 0x00#8)) ||| (v &&& 0x80#8)

/-- The three patterns of N and Z (40_fetch_dispatch_flags.md R98, a derivation of the spec): never both 1, and a
second update with the same value changes nothing. On the state it reads and writes P only. -/
def Obligations.UpdateZNPatterns : Prop :=
  (∀ v p : Byte,
    (v = 0x00#8 → negativeFlag (updateZN v p) = false ∧ zeroFlag (updateZN v p) = true) ∧
    (1 ≤ v.toNat ∧ v.toNat ≤ 127 → negativeFlag (updateZN v p) = false ∧ zeroFlag (updateZN v p) = false) ∧
    (128 ≤ v.toNat ∧ v.toNat ≤ 255 → negativeFlag (updateZN v p) = true ∧ zeroFlag (updateZN v p) = false) ∧
    ¬ (negativeFlag (updateZN v p) = true ∧ zeroFlag (updateZN v p) = true) ∧
    updateZN v (updateZN v p) = updateZN v p) ∧
  (∀ (s : State) (v : Byte), s.flagsFrom v = { s with p := updateZN v s.p })

/-! ## The instructions -/

/-- BRK (41_brk_halt.md R110): one byte 0x00. The handler writes RS and nothing else; the STEP that finds 0x00 at PC
ends HALTED with PC one on and every other field of the state tuple as it was, whatever bytes follow, and as the last
byte too (that the image goes with the end of the run is 70_reset_and_hazards.md R175); no other instruction halts. A
0x00 that is the operand of an LDA is no BRK; after BRK the host may START again. -/
def Obligations.BrkHaltsAndNothingElse : Prop :=
  encode .brk = [0x00#8] ∧
  (∀ s : State, exec .brk s = .next { s with rs := .halted }) ∧
  (∀ s : State, s.Inv → s.atOpcode 0x00#8 →
    step s = .next { s with pc := s.pc + 1#16, rs := .halted, image := none } ∧ (s.pc + 1#16).toNat = s.pc.toNat + 1) ∧
  (∀ (i : Instr) (s t : State), exec i s = .next t → s.rs = .running → t.rs = .halted → i = .brk) ∧
  (∀ rest : List Byte, decode (0xA9#8 :: 0x00#8 :: rest) = .ok (.lda 0x00#8, rest)) ∧
  (∀ (s t : State) (prog : List Byte), exec .brk s = .next t → prog.length ≤ 65535 → ∃ u, start prog t = .next u)

/-- `LDA #imm8` (42_lda_load_immediate.md R115; that the handler is entered with its operand fetched is the model's
arrangement, DESIGN CHOICE, log 7): two bytes, 0xA9 and the operand. The handler makes A the operand and Z and N
follow it, and writes nothing else; the STEP also moves PC by 2. Where 0xA9 is the last byte the operand fetch raises
OutOfBounds before the handler acts. The worked examples of the rule. -/
def Obligations.LdaHandlerLoadsImmediate : Prop :=
  (∀ m, encode (.lda m) = [0xA9#8, m]) ∧
  (∀ (m : Byte) (s : State), ∃ t, exec (.lda m) s = .next t ∧
    t = { s with a := m, p := t.p } ∧
    zeroFlag t.p = decide (m = 0x00#8) ∧ negativeFlag t.p = m.getLsbD 7 ∧ reservedBits t.p = reservedBits s.p) ∧
  (∀ (s : State) (m : Byte), s.Inv → s.atOpcode 0xA9#8 → s.imageByte (s.pc.toNat + 1) = some m →
    step s = .next { s with a := m, pc := s.pc + 2#16, p := updateZN m s.p }) ∧
  (∀ s : State, s.Inv → s.atOpcode 0xA9#8 → s.imageLength ≤ s.pc.toNat + 1 →
    step s = .next
      { s with pc := s.pc + 1#16, rs := .faulted, fr := some (.outOfBounds (s.pc + 1#16)), image := none } ∧
    (s.pc + 1#16).toNat = s.imageLength) ∧
  (∃ t, interpret [0xA9#8, 0x04#8, 0x00#8] State.reset = .next t ∧ t.a = 0x04#8 ∧ t.pc = 3#16 ∧ t.p = 0b00000000#8) ∧
  (∃ t, interpret [0xA9#8, 0x00#8, 0x00#8] State.reset = .next t ∧ t.a = 0x00#8 ∧ t.p = 0b00000010#8) ∧
  (∃ t, interpret [0xA9#8, 0b10110010#8, 0x00#8] State.reset = .next t ∧ t.p = 0b10000000#8)

/-- The LDA law (42_lda_load_immediate.md R116), for every prior state: after `LDA #v` completes A is v, Z and N
follow v, the other six bits of P, X, Y and SP are what they were, and PC has grown by 2. Only 0xA9 is an LDA: 0xA5
and 0xAD, for instance, are unimplemented. -/
def Obligations.LdaLaw : Prop :=
  (∀ (s : State) (v : Byte), s.Inv → s.atOpcode 0xA9#8 → s.imageByte (s.pc.toNat + 1) = some v →
    ∃ t, step s = .next t ∧ t.a = v ∧
      zeroFlag t.p = decide (v = 0x00#8) ∧ negativeFlag t.p = v.getLsbD 7 ∧
      (negativeFlag t.p = true ↔ v &&& 0x80#8 ≠ 0x00#8) ∧ t.p &&& 0x7D#8 = s.p &&& 0x7D#8 ∧
      t.x = s.x ∧ t.y = s.y ∧ t.sp = s.sp ∧ t.pc.toNat = s.pc.toNat + 2 ∧ t.rs = .running ∧ t.fr = s.fr) ∧
  (∀ (op v : Byte) (rest rest' : List Byte), decode (op :: rest) = .ok (.lda v, rest') → op = 0xA9#8) ∧
  (∀ rest : List Byte, decode (0xA5#8 :: rest) = .ok (.unimplemented 0xA5#8, rest) ∧
    decode (0xAD#8 :: rest) = .ok (.unimplemented 0xAD#8, rest))

/-- TAX (43_tax_transfer.md R120): one byte 0xAA. The handler makes X equal to A and Z and N follow A, and writes
nothing else; computing the flags from the new X would give the same P; the STEP also moves PC by 1. The worked
example of the rule. -/
def Obligations.TaxHandlerCopiesAccumulator : Prop :=
  encode .tax = [0xAA#8] ∧
  (∀ s : State, ∃ t, exec .tax s = .next t ∧
    t = { s with x := s.a, p := t.p } ∧ t.p = updateZN t.x s.p ∧
    zeroFlag t.p = decide (s.a = 0x00#8) ∧ negativeFlag t.p = s.a.getLsbD 7 ∧ reservedBits t.p = reservedBits s.p) ∧
  (∀ s : State, s.Inv → s.atOpcode 0xAA#8 →
    step s = .next { s with x := s.a, pc := s.pc + 1#16, p := updateZN s.a s.p }) ∧
  (∃ t, interpret [0xAA#8, 0x00#8] (State.reset.preset (.a 0x06#8)) = .next t ∧
    t.x = 0x06#8 ∧ t.pc = 2#16 ∧ zeroFlag t.p = false ∧ negativeFlag t.p = false)

/-- The TAX law (43_tax_transfer.md R121, a derivation of the spec), for every prior state: after TAX completes X is
A, A is what it was, Z and N follow A, the other six bits of P, Y and SP are what they were, PC has grown by 1; and a
second TAX changes PC only. -/
def Obligations.TaxLaw : Prop :=
  ∀ s : State, s.Inv → s.atOpcode 0xAA#8 →
    ∃ t, step s = .next t ∧ t.x = s.a ∧ t.a = s.a ∧
      zeroFlag t.p = decide (s.a = 0x00#8) ∧ negativeFlag t.p = s.a.getLsbD 7 ∧
      t.p &&& 0x7D#8 = s.p &&& 0x7D#8 ∧ t.y = s.y ∧ t.sp = s.sp ∧
      t.pc.toNat = s.pc.toNat + 1 ∧ t.rs = .running ∧ t.fr = s.fr ∧
      (s.imageByte (s.pc.toNat + 1) = some 0xAA#8 → step t = .next { t with pc := t.pc + 1#16 })

/-- INX (44_inx_increment.md R125): one byte 0xE8. The handler makes X (X + 1) mod 256 and Z and N follow the new X,
and writes nothing else; the STEP also moves PC by 1. The source's worked example. -/
def Obligations.InxHandlerIncrements : Prop :=
  encode .inx = [0xE8#8] ∧
  (∀ s : State, ∃ t, exec .inx s = .next t ∧
    t = { s with x := t.x, p := t.p } ∧ t.x.toNat = (s.x.toNat + 1) % 256 ∧
    zeroFlag t.p = decide (t.x = 0x00#8) ∧ negativeFlag t.p = t.x.getLsbD 7 ∧ reservedBits t.p = reservedBits s.p) ∧
  (∀ s : State, s.Inv → s.atOpcode 0xE8#8 →
    step s = .next { s with x := s.x + 1#8, pc := s.pc + 1#16, p := updateZN (s.x + 1#8) s.p }) ∧
  (∃ t, interpret [0xE8#8, 0x00#8] (State.reset.preset (.x 0xFF#8)) = .next t ∧
    t.x = 0x00#8 ∧ zeroFlag t.p = true)

/-- The wraparound law (44_inx_increment.md R126; the formula for k applications is a derivation of the spec): after
`k` INX in a row X is (X + k) mod 256 and PC has grown by `k`; so 256 of them give X back with Z and N following it,
and no smaller positive number does. -/
def Obligations.InxWraparoundLaw : Prop :=
  ∀ (k : Nat) (s : State), s.Inv → s.rs = .running →
    (∀ j, j < k → s.imageByte (s.pc.toNat + j) = some 0xE8#8) →
    ∃ t, Host.Core.run core k s = .next t ∧ t.x.toNat = (s.x.toNat + k) % 256 ∧ t.pc.toNat = s.pc.toNat + k ∧
      (0 < k → zeroFlag t.p = decide (t.x = 0x00#8) ∧ negativeFlag t.p = t.x.getLsbD 7) ∧
      (k = 256 → t.x = s.x) ∧ (0 < k ∧ k < 256 → t.x ≠ s.x)

/-- Each of the 252 other opcode bytes (45_unimplemented_opcodes.md R130) is the fault UnimplementedOpcode: the
handler, entered past the byte, writes FR and RS only; the STEP that finds it at PC also moves PC past it, and reads
no further byte (that the image goes with the end of the run is 70_reset_and_hazards.md R175). In operand position the
byte is data. -/
def Obligations.UnimplementedOpcodeFaults : Prop :=
  ∀ b : Byte, b ∉ [0x00#8, 0xA9#8, 0xAA#8, 0xE8#8] →
    (∀ (s : State) (o : Offset), s.pc.toNat = o.toNat + 1 →
      exec (.unimplemented b) s = .next { s with rs := .faulted, fr := some (.unimplementedOpcode b o) }) ∧
    (∀ s : State, s.Inv → s.atOpcode b →
      step s = .next
        { s with pc := s.pc + 1#16, rs := .faulted, fr := some (.unimplementedOpcode b s.pc), image := none }) ∧
    (∀ rest : List Byte, decode (0xA9#8 :: b :: rest) = .ok (.lda b, rest))

/-- The frames of the handlers (10_state.md Table R38, the spec's own derivation): what each leaves unchanged, every
byte of memory among it. That no handler moves PC, LDA's neither, is the model's arrangement (DESIGN CHOICE, log 7):
`exec` is entered with the operand already fetched, where R115 lets the handler fetch it and Table R38 gives LDA two
fetches. PC at the end of a whole STEP is stated in PcAtEndOfEachStep. -/
def Obligations.HandlerFrames : Prop :=
  ∀ (i : Instr) (s t : State), exec i s = .next t →
    t.y = s.y ∧ t.sp = s.sp ∧ t.pc = s.pc ∧ reservedBits t.p = reservedBits s.p ∧
    (∀ addr : Nat, t.imageByte addr = s.imageByte addr) ∧ t.imageLength = s.imageLength ∧
    (i = .brk → t.a = s.a ∧ t.x = s.x ∧ t.p = s.p ∧ t.fr = s.fr) ∧
    (∀ m, i = .lda m → t.x = s.x ∧ t.rs = s.rs ∧ t.fr = s.fr) ∧
    (i = .tax → t.a = s.a ∧ t.rs = s.rs ∧ t.fr = s.fr) ∧
    (i = .inx → t.a = s.a ∧ t.rs = s.rs ∧ t.fr = s.fr) ∧
    (∀ b, i = .unimplemented b → t.a = s.a ∧ t.x = s.x ∧ t.p = s.p)

/-- What PC is at the end of a STEP, and what else the STEP does: the seven rows of Table R26 (its fault rows are
derivations of the spec). -/
def Obligations.PcAtEndOfEachStep : Prop :=
  ∀ s : State, s.Inv → s.rs = .running → ∃ t, step s = .next t ∧
    (s.imageLength ≤ s.pc.toNat → t.pc = s.pc ∧ t.rs = .faulted ∧ t.fr = some (.outOfBounds s.pc)) ∧
    (s.imageByte s.pc.toNat = some 0x00#8 → t.pc.toNat = s.pc.toNat + 1 ∧ t.rs = .halted ∧ t.fr = none) ∧
    (s.imageByte s.pc.toNat = some 0xA9#8 → s.pc.toNat + 1 < s.imageLength →
      t.pc.toNat = s.pc.toNat + 2 ∧ t.rs = .running ∧ some t.a = s.imageByte (s.pc.toNat + 1) ∧
        t.p = updateZN t.a s.p) ∧
    (s.imageByte s.pc.toNat = some 0xA9#8 → s.imageLength ≤ s.pc.toNat + 1 →
      t.pc.toNat = s.pc.toNat + 1 ∧ t.pc.toNat = s.imageLength ∧ t.rs = .faulted ∧
        t.fr = some (.outOfBounds t.pc) ∧ t.a = s.a ∧ t.p = s.p) ∧
    (s.imageByte s.pc.toNat = some 0xAA#8 →
      t.pc.toNat = s.pc.toNat + 1 ∧ t.rs = .running ∧ t.x = s.a ∧ t.p = updateZN s.a s.p) ∧
    (s.imageByte s.pc.toNat = some 0xE8#8 →
      t.pc.toNat = s.pc.toNat + 1 ∧ t.rs = .running ∧ t.x = s.x + 1#8 ∧ t.p = updateZN t.x s.p) ∧
    (∀ b, s.imageByte s.pc.toNat = some b → b ∉ [0x00#8, 0xA9#8, 0xAA#8, 0xE8#8] →
      t.pc.toNat = s.pc.toNat + 1 ∧ t.rs = .faulted ∧ t.fr = some (.unimplementedOpcode b s.pc))

/-! ## Faults -/

/-- Fault entry (60_exceptions.md R144), at every point where a STEP raises: in the fetch half, and in the dispatcher.
FR and RS are written and every other field of the state tuple is left as it is at the point of the raise; the run has
ended, so the image is released (70_reset_and_hazards.md R175), by the STEP and not by the fault entry. -/
def Obligations.FaultEntry : Prop :=
  (∀ (s u : State) (f : FaultRecord), s.rs = .running → s.fetchInstr = .raised f u →
    step s = .next { u with fr := some f, rs := .faulted, image := none }) ∧
  (∀ (s u : State) (b : Byte), s.rs = .running → s.fetchInstr = .got (.unimplemented b) u →
    step s = .next { u with fr := some (.unimplementedOpcode b (u.pc - 1#16)), rs := .faulted, image := none }) ∧
  (∀ (s : State) (f : FaultRecord), s.takeFault f = { s with fr := some f, rs := .faulted })

/-- Faults are precise (60_exceptions.md R145; its two OutOfBounds cases are derivations of the spec): a STEP that
faults has written none of A, X, SP, P and Y, and PC has moved by the fetches that succeeded only: by nothing, by the
unimplemented byte, or by the opcode byte of the LDA. -/
def Obligations.FaultsArePrecise : Prop :=
  ∀ s t : State, s.Inv → step s = .next t → t.rs = .faulted →
    t.a = s.a ∧ t.x = s.x ∧ t.y = s.y ∧ t.sp = s.sp ∧ t.p = s.p ∧
    ((s.imageByte s.pc.toNat = none ∧ t.pc = s.pc ∧ t.fr = some (.outOfBounds s.pc)) ∨
     (∃ b, s.imageByte s.pc.toNat = some b ∧ b ∉ [0x00#8, 0xA9#8, 0xAA#8, 0xE8#8] ∧
       t.pc.toNat = s.pc.toNat + 1 ∧ t.fr = some (.unimplementedOpcode b s.pc)) ∨
     (s.imageByte s.pc.toNat = some 0xA9#8 ∧ s.imageByte (s.pc.toNat + 1) = none ∧
       t.pc.toNat = s.pc.toNat + 1 ∧ t.fr = some (.outOfBounds t.pc)))

/-- The order of the checks inside a STEP (60_exceptions.md R147, a derivation of the spec): the opcode fetch, then
the decode, then LDA's operand fetch. An unimplemented byte in the last place reports UnimplementedOpcode, a 0xA9
there OutOfBounds. -/
def Obligations.FaultCheckOrder : Prop :=
  ∀ s : State, s.Inv → s.rs = .running →
    (s.imageLength ≤ s.pc.toNat → ∃ t, step s = .next t ∧ t.fr = some (.outOfBounds s.pc)) ∧
    (∀ b, s.imageByte s.pc.toNat = some b → b ∉ [0x00#8, 0xA9#8, 0xAA#8, 0xE8#8] →
      ∃ t, step s = .next t ∧ t.fr = some (.unimplementedOpcode b s.pc)) ∧
    (s.imageByte s.pc.toNat = some 0xA9#8 → s.imageLength ≤ s.pc.toNat + 1 →
      ∃ t, step s = .next t ∧ t.fr = some (.outOfBounds (s.pc + 1#16))) ∧
    (∀ b, s.imageByte s.pc.toNat = some b → b = 0x00#8 ∨ b = 0xAA#8 ∨ b = 0xE8#8 ∨
        b = 0xA9#8 ∧ s.pc.toNat + 1 < s.imageLength →
      ∃ t, step s = .next t ∧ t.fr = none)

/-- OutOfBounds (60_exceptions.md R141; that these are all is a derivation of the spec) arises in exactly its
situations: the opcode fetch at L (the empty image among them), or a 0xA9 in the last place; PC and the recorded
offset are then L. -/
def Obligations.OutOfBoundsSituations : Prop :=
  ∀ (s : State) (o : Offset), s.Inv → s.rs = .running →
    ((∃ t, step s = .next t ∧ t.fr = some (.outOfBounds o)) ↔
      o.toNat = s.imageLength ∧
        (s.pc.toNat = s.imageLength ∨ s.pc.toNat + 1 = s.imageLength ∧ s.imageByte s.pc.toNat = some 0xA9#8)) ∧
    (∀ t, step s = .next t → t.fr = some (.outOfBounds o) → t.pc = o)

/-- After a fault (60_exceptions.md R150): from FAULTED no STEP, START or host write has a transition, and RESET gives
a fresh Processor. -/
def Obligations.OnlyResetAfterFault : Prop :=
  ∀ s : State, s.rs = .faulted →
    (∀ (e : Event) (t : State), transition e s = .next t ↔ e = .reset ∧ t = State.reset)

/-! ## The host: START and access -/

/-- START (40_fetch_dispatch_flags.md R91): defined only in HALTED and for at most 65535 bytes; it binds the image,
sets PC to 0 and RS to RUNNING and writes nothing else; the image then holds byte k of the sequence at offset k and
nothing past it; and the first STEP on an empty image faults. -/
def Obligations.StartBindsAndRuns : Prop :=
  (∀ (prog : List Byte) (s : State), s.rs = .halted → prog.length ≤ 65535 →
    ∃ t, start prog s = .next t ∧ t.pc = 0x0000#16 ∧ t.rs = .running ∧
      t = { s with pc := 0x0000#16, rs := .running, image := t.image } ∧
      t.imageLength = prog.length ∧ (∀ k, t.imageByte k = prog[k]?) ∧ t.bytesFrom 0 = prog ∧
      (prog = [] → step t = .next { t.takeFault (.outOfBounds 0x0000#16) with image := none })) ∧
  (∀ (prog : List Byte) (s t : State), s.rs ≠ .halted ∨ 65535 < prog.length → start prog s ≠ .next t)

/-- Host access (10_state.md R39): in HALTED the host reads every field and writes any value into one of A, X, Y, PC,
SP, P, changing that field alone; in RUNNING it has no access; in FAULTED it reads, does not write, and only RESET is
defined. A write to PC before START is lost. The name of the refusal that a read in RUNNING answers is the model's
(DESIGN CHOICE, log 13): the spec gives no name. -/
def Obligations.HostAccessByRunState : Prop :=
  (∀ s : State, s.rs = .halted →
    (∀ v, hostWrite (.a v) s = .next { s with a := v }) ∧ (∀ v, hostWrite (.x v) s = .next { s with x := v }) ∧
    (∀ v, hostWrite (.y v) s = .next { s with y := v }) ∧ (∀ v, hostWrite (.pc v) s = .next { s with pc := v }) ∧
    (∀ v, hostWrite (.sp v) s = .next { s with sp := v }) ∧ (∀ v, hostWrite (.p v) s = .next { s with p := v }) ∧
    (∀ v prog, start prog (s.preset (.pc v)) = start prog s)) ∧
  (∀ s : State, s.rs ≠ .running → hostRead s = .ok ⟨s.a, s.x, s.y, s.pc, s.sp, s.p, s.rs, s.fr⟩) ∧
  (∀ s : State, s.rs = .running → hostRead s = .error (.hostAccessDenied .running)) ∧
  (∀ (s t : State) (w : HostWrite), s.rs ≠ .halted → hostWrite w s ≠ .next t) ∧
  (∀ (s t : State) (e : Event), s.rs = .faulted → transition e s = .next t → e = .reset)

/-- The transitions of RS (10_state.md R32) are exactly these: RESET to HALTED from any state; START to RUNNING, from
HALTED only; a STEP, from RUNNING only, to HALTED if it decodes 0x00, to FAULTED if it raises a fault, else RUNNING; a
host write changes none. -/
def Obligations.RunStateTransitions : Prop :=
  (∀ s : State, ∃ t, transition .reset s = .next t ∧ t.rs = .halted) ∧
  (∀ (prog : List Byte) (s t : State), transition (.start prog) s = .next t → s.rs = .halted ∧ t.rs = .running) ∧
  (∀ s t : State, s.Inv → transition .step s = .next t →
    s.rs = .running ∧ (t.rs = .halted ↔ s.imageByte s.pc.toNat = some 0x00#8) ∧ (t.rs = .faulted ↔ t.fr ≠ none)) ∧
  (∀ (w : HostWrite) (s t : State), transition (.write w) s = .next t → s.rs = .halted ∧ t.rs = .halted)

/-- The life of FR (10_state.md R34): none unless RS is FAULTED, and then a fault; only a STEP that faults writes it,
over none; and only RESET clears it. -/
def Obligations.FaultRecordLife : Prop :=
  ∀ s : State, s.Inv →
    (s.fr = none ↔ s.rs ≠ .faulted) ∧
    (∀ (e : Event) (t : State), transition e s = .next t → t.fr ≠ s.fr →
      (e = .step ∧ s.fr = none ∧ t.rs = .faulted ∧ t.fr ≠ none) ∨ (e = .reset ∧ t.fr = none))

/-! ## Whole runs -/

/-- Every run ends (40_fetch_dispatch_flags.md R101, a derivation of the spec), within L + 1 STEPs, for every image
and every start state: each STEP that does not fault raises PC, PC never exceeds L, and a STEP at L faults with
OutOfBounds(L). -/
def Obligations.EveryRunEnds : Prop :=
  (∀ (prog : List Byte) (s : State), s.Inv → s.rs = .halted → prog.length ≤ 65535 →
    ∃ (u t : State) (n : Nat), start prog s = .next u ∧ n ≤ prog.length + 1 ∧ Host.Core.run core n u = .next t ∧
      t.rs ≠ .running ∧ t.pc.toNat ≤ prog.length ∧ interpret prog s = .next t) ∧
  (∀ s t : State, s.Inv → s.rs = .running → step s = .next t →
    (t.rs ≠ .faulted → s.pc.toNat + 1 ≤ t.pc.toNat) ∧ t.pc.toNat ≤ s.imageLength ∧
    (s.pc.toNat = s.imageLength → t.rs = .faulted ∧ t.fr = some (.outOfBounds s.pc)))

/-- A run ends normally if and only if the straight line from offset 0 reaches a BRK (70_reset_and_hazards.md R173,
whose straight-line form is a derivation of the spec), whatever the registers hold. -/
def Obligations.NormalEndIffReachesBrk : Prop :=
  ∀ (prog : List Byte) (s : State), s.Inv → s.rs = .halted → prog.length ≤ 65535 →
    ((∃ t, interpret prog s = .next t ∧ t.normalEnd) ↔ reachesBrk prog = true)

/-- PC at a normal end (40_fetch_dispatch_flags.md R102) is the number of bytes consumed: 2 for each LDA and 1 for
each TAX and INX executed, and 1 for the BRK, which stands at the offset before it. The source's instance ends with PC
3. -/
def Obligations.PcAtNormalEndCountsBytes : Prop :=
  (∀ (prog : List Byte) (s t : State), s.Inv → interpret prog s = .next t → t.normalEnd →
    t.pc.toNat = 2 * (executed prog).countP Instr.isLda + (executed prog).count .tax + (executed prog).count .inx + 1 ∧
    prog[t.pc.toNat - 1]? = some 0x00#8) ∧
  (∃ t, interpret [0xA9#8, 0x04#8, 0x00#8] State.reset = .next t ∧ t.normalEnd ∧ t.pc = 3#16)

/-- What a run can and cannot change (40_fetch_dispatch_flags.md R105, a derivation of the spec), whichever way it
ends: Y, SP and the reserved bits of P never; A only if an LDA executes; X only if a TAX or INX does; Z and N only if
one of the three does; PC ends between 0 and L; and at every point of the run the image is what START bound. -/
def Obligations.RunFrame : Prop :=
  ∀ (prog : List Byte) (s t : State), s.Inv → interpret prog s = .next t →
    t.y = s.y ∧ t.sp = s.sp ∧ reservedBits t.p = reservedBits s.p ∧
    (t.a ≠ s.a → ∃ m, Instr.lda m ∈ executed prog) ∧
    (t.x ≠ s.x → Instr.tax ∈ executed prog ∨ Instr.inx ∈ executed prog) ∧
    (t.p ≠ s.p → (∃ m, Instr.lda m ∈ executed prog) ∨ Instr.tax ∈ executed prog ∨ Instr.inx ∈ executed prog) ∧
    t.pc.toNat ≤ prog.length ∧
    (∀ (u v : State) (n : Nat), start prog s = .next u → Host.Core.run core n u = .next v → v.rs = .running →
      v.image = u.image ∧ v.bytesFrom 0 = prog ∧ v.imageLength = prog.length)

/-- What the core keeps and hands back at the end of a run (70_reset_and_hazards.md R175; that the image is a field of
State is DESIGN CHOICE, log 4): a STEP after which the run goes on keeps the bound image, and a STEP that ends the run,
normally or by a fault, leaves no reference to it; so a run answers nothing but the registers and flags, which the host
then reads. -/
def Obligations.ImageIsReleasedAtEndOfRun : Prop :=
  (∀ s t : State, step s = .next t → (t.rs = .running → t.image = s.image) ∧ (t.rs ≠ .running → t.image = none)) ∧
  (∀ (prog : List Byte) (s t : State), s.Inv → interpret prog s = .next t →
    t.image = none ∧ hostRead t = .ok ⟨t.a, t.x, t.y, t.pc, t.sp, t.p, t.rs, t.fr⟩)

/-- Carry-over between runs (10_state.md R40): a second START after a normal end sets PC to 0 and begins fetching from
the start of the new image, and A, X, Y, SP and all of P are exactly what the first run, and any host presets after
it, left. -/
def Obligations.RegistersCarryOverBetweenRuns : Prop :=
  ∀ (prog₁ prog₂ : List Byte) (s t : State) (presets : List HostWrite),
    interpret prog₁ s = .next t → t.normalEnd → prog₂.length ≤ 65535 →
    ∃ u, start prog₂ (presets.foldl State.preset t) = .next u ∧ u.rs = .running ∧ u.pc = 0x0000#16 ∧ u.bytesFrom 0 = prog₂ ∧
      u.a = (presets.foldl State.preset t).a ∧ u.x = (presets.foldl State.preset t).x ∧
      u.y = (presets.foldl State.preset t).y ∧ u.sp = (presets.foldl State.preset t).sp ∧
      u.p = (presets.foldl State.preset t).p

/-! ## Noninterference -/

/-- The bytes after the BRK that ends a run are never read (20_memory.md R62 and R64, both derivations of the spec):
with any other bytes after them the run ends in the same registers. -/
def Obligations.BytesAfterBrkAreNeverRead : Prop :=
  ∀ (prog extra : List Byte) (s t : State), s.Inv → interpret prog s = .next t → t.normalEnd →
    (prog ++ extra).length ≤ 65535 → ∃ u, interpret (prog ++ extra) s = .next u ∧ u.view = t.view

/-- No instruction reads or writes Y or SP (10_state.md R23, R28): a STEP with other values in them does the same and
leaves those values there. -/
def Obligations.YAndSpAreInert : Prop :=
  ∀ (s t : State) (y : Byte) (sp : Offset), step s = .next t → step (s.withYSp y sp) = .next (t.withYSp y sp)

/-- No instruction reads a flag (10_state.md R30, R31, R35): a STEP with another value in P does the same to every
other field. -/
def Obligations.StatusFlagsAreNeverRead : Prop :=
  ∀ (s t : State) (p : Byte), step s = .next t → ∃ q, step (s.withP p) = .next (t.withP q)
end

