-- ==== Sys2Proof/Laws/Decode.lean ====
section
/-! SUPPORT. Laws/Decode.lean: everything the opcode map can answer, and that it agrees with the machine-readable table. -/

namespace Sys2Proof

/-- Each answer of the opcode map, with the byte that gives it. -/
theorem decodeOpcode_cases (b : Byte) :
    (b = 0x00#8 ∧ decodeOpcode b = .brk) ∨ (b = 0xA9#8 ∧ decodeOpcode b = .ldaImm) ∨
    (b = 0xAA#8 ∧ decodeOpcode b = .tax) ∨ (b = 0xE8#8 ∧ decodeOpcode b = .inx) ∨
    (b ∉ implementedOpcodes ∧ decodeOpcode b = .unimplemented b) := by
  unfold decodeOpcode
  split
  · exact .inl ⟨‹_›, rfl⟩
  split
  · exact .inr (.inl ⟨‹_›, rfl⟩)
  split
  · exact .inr (.inr (.inl ⟨‹_›, rfl⟩))
  split
  · exact .inr (.inr (.inr (.inl ⟨‹_›, rfl⟩)))
  · refine .inr (.inr (.inr (.inr ⟨?_, rfl⟩)))
    simp_all [implementedOpcodes]

@[simp] theorem decodeOpcode_brk : decodeOpcode 0x00#8 = .brk := rfl
@[simp] theorem decodeOpcode_lda : decodeOpcode 0xA9#8 = .ldaImm := rfl
@[simp] theorem decodeOpcode_tax : decodeOpcode 0xAA#8 = .tax := rfl
@[simp] theorem decodeOpcode_inx : decodeOpcode 0xE8#8 = .inx := rfl

theorem decodeOpcode_unimplemented {b : Byte} (h : b ∉ implementedOpcodes) :
    decodeOpcode b = .unimplemented b := by
  simp only [implementedOpcodes, List.mem_cons, List.not_mem_nil, or_false, not_or] at h
  simp [decodeOpcode, h]

theorem wellFormed_unimplemented {b : Byte} :
    (Instr.unimplemented b).wellFormed = true ↔ b ∉ implementedOpcodes := by
  simp [Instr.wellFormed]

/-- The decoder built from the table alone agrees with the opcode map (30_encoding.md R83). -/
theorem decodeByTable_eq (b : Byte) : decodeByTable b = decodeOpcode b := by
  revert b; decide

end Sys2Proof
end

