-- ==== Sys2Proof/Laws/Memory.lean ====
section
/-! SUPPORT. Laws/Memory.lean: an image built from bytes has its canonical form and reads back those bytes; in an image of
that form the listed offsets are exactly 0..L-1. -/

namespace Sys2Proof.Machine

theorem Memory.length_ofBytesFrom (k : Nat) (prog : List Byte) :
    (Memory.ofBytesFrom k prog).length = prog.length := by
  induction prog generalizing k with
  | nil => rfl
  | cons b bs ih => simp [Memory.ofBytesFrom, ih]

@[simp] theorem Memory.length_ofBytes (prog : List Byte) : (Memory.ofBytes prog).length = prog.length :=
  Memory.length_ofBytesFrom 0 prog

theorem Memory.bytes_ofBytesFrom (k : Nat) (prog : List Byte) :
    (Memory.ofBytesFrom k prog).bytes = prog := by
  induction prog generalizing k with
  | nil => rfl
  | cons b bs ih => simpa [Memory.ofBytesFrom, Memory.bytes] using ih (k + 1)

@[simp] theorem Memory.bytes_ofBytes (prog : List Byte) : (Memory.ofBytes prog).bytes = prog :=
  Memory.bytes_ofBytesFrom 0 prog

theorem Memory.wfFrom_ofBytesFrom (k : Nat) (prog : List Byte) :
    Memory.wfFrom k (Memory.ofBytesFrom k prog) = true := by
  induction prog generalizing k with
  | nil => rfl
  | cons b bs ih => simp [Memory.ofBytesFrom, Memory.wfFrom, ih]

/-- Binding is the only operation that makes an image, and it makes one in the canonical form. -/
theorem Memory.wf_ofBytes {prog : List Byte} (h : prog.length ≤ Config.maxImageLength) :
    (Memory.ofBytes prog).wf = true := by
  simpa [Memory.wf, Memory.ofBytes, Memory.length_ofBytesFrom, Memory.wfFrom_ofBytesFrom] using h

/-- An image in the canonical form from `k` on holds its `i`-th byte at offset `k + i`, and nothing past its end. -/
theorem Memory.read_wfFrom {m : Memory} {k : Nat} (h : Memory.wfFrom k m = true) (i : Nat) :
    m.read (k + i) = m.bytes[i]? := by
  induction m generalizing k i with
  | nil => simp [Memory.read, Memory.bytes, Memory.unlisted]
  | cons c rest ih =>
    obtain ⟨a, b⟩ := c
    simp only [Memory.wfFrom, Bool.and_eq_true, beq_iff_eq] at h
    obtain ⟨rfl, h⟩ := h
    cases i with
    | zero => simp [Memory.read, Memory.bytes]
    | succ i =>
      have hne : ¬ a + (i + 1) = a := by omega
      have := ih h i
      rw [show a + 1 + i = a + (i + 1) by omega] at this
      simpa [Memory.read, hne, Memory.bytes] using this

theorem Memory.read_wf {m : Memory} (h : m.wf = true) (i : Nat) : m.read i = m.bytes[i]? := by
  simp only [Memory.wf, Bool.and_eq_true] at h
  simpa using Memory.read_wfFrom h.1 i

theorem Memory.length_le_of_wf {m : Memory} (h : m.wf = true) : m.length ≤ Config.maxImageLength := by
  simp only [Memory.wf, Bool.and_eq_true, decide_eq_true_eq] at h
  exact h.2

theorem Memory.wfFrom_rising {m : Memory} {k : Nat} (h : Memory.wfFrom k m = true) :
    m.Pairwise (fun c d => c.1 < d.1) ∧ ∀ c ∈ m, k ≤ c.1 := by
  induction m generalizing k with
  | nil => simp
  | cons c rest ih =>
    obtain ⟨a, b⟩ := c
    simp only [Memory.wfFrom, Bool.and_eq_true, beq_iff_eq] at h
    obtain ⟨rfl, h⟩ := h
    obtain ⟨hp, hk⟩ := ih h
    refine ⟨List.pairwise_cons.mpr ⟨fun d hd => by have := hk d hd; omega, hp⟩, ?_⟩
    intro d hd
    rcases List.mem_cons.mp hd with rfl | hd
    · exact Nat.le_refl _
    · have := hk d hd; omega

/-- The addresses of an image in the canonical form rise strictly. -/
theorem Memory.wf_rising {m : Memory} (h : m.wf = true) : m.Pairwise (fun c d => c.1 < d.1) := by
  simp only [Memory.wf, Bool.and_eq_true] at h
  exact (Memory.wfFrom_rising h.1).1

theorem State.imageLength_le {s : State} (h : s.imageWf = true) : s.imageLength ≤ Config.maxImageLength := by
  unfold State.imageWf at h
  unfold State.imageLength
  split at h <;> simp_all [Memory.length_le_of_wf]

/-- The bytes from an offset on start with the byte at that offset. -/
theorem State.bytesFrom_getElem {s : State} (h : s.imageWf = true) (k i : Nat) :
    (s.bytesFrom k)[i]? = s.imageByte (k + i) := by
  unfold State.imageWf at h
  unfold State.bytesFrom State.imageByte
  split at h
  · simp [Memory.unlisted]
  · simp [Memory.read_wf h, List.getElem?_drop]

/-- Below L there is a byte at every offset, and from L on there is none. -/
theorem State.imageByte_isSome {s : State} (h : s.imageWf = true) (k : Nat) :
    (s.imageByte k).isSome = true ↔ k < s.imageLength := by
  unfold State.imageWf at h
  unfold State.imageByte State.imageLength
  split at h
  · simp [Memory.unlisted]
  · simp [Memory.read_wf h, Memory.bytes]

theorem State.imageByte_none {s : State} (h : s.imageWf = true) {k : Nat} (hk : s.imageLength ≤ k) :
    s.imageByte k = none := by
  have := State.imageByte_isSome h k
  cases hb : s.imageByte k with
  | none => rfl
  | some b => rw [hb] at this; simp at this; omega

end Sys2Proof.Machine
end

