-- ==== Sys2Proof/Laws/State.lean ====
section
/-! SUPPORT. Laws/State.lean: what each named update of the state leaves in each field, and that only START's body
and the end of a run change the image. -/

namespace Sys2Proof.Machine

variable (s : State)

@[simp] theorem State.setA_a (v : Byte) : (s.setA v).a = v := rfl
@[simp] theorem State.setA_x (v : Byte) : (s.setA v).x = s.x := rfl
@[simp] theorem State.setA_y (v : Byte) : (s.setA v).y = s.y := rfl
@[simp] theorem State.setA_pc (v : Byte) : (s.setA v).pc = s.pc := rfl
@[simp] theorem State.setA_sp (v : Byte) : (s.setA v).sp = s.sp := rfl
@[simp] theorem State.setA_p (v : Byte) : (s.setA v).p = s.p := rfl
@[simp] theorem State.setA_rs (v : Byte) : (s.setA v).rs = s.rs := rfl
@[simp] theorem State.setA_fr (v : Byte) : (s.setA v).fr = s.fr := rfl
@[simp] theorem State.setA_image (v : Byte) : (s.setA v).image = s.image := rfl

@[simp] theorem State.setX_a (v : Byte) : (s.setX v).a = s.a := rfl
@[simp] theorem State.setX_x (v : Byte) : (s.setX v).x = v := rfl
@[simp] theorem State.setX_y (v : Byte) : (s.setX v).y = s.y := rfl
@[simp] theorem State.setX_pc (v : Byte) : (s.setX v).pc = s.pc := rfl
@[simp] theorem State.setX_sp (v : Byte) : (s.setX v).sp = s.sp := rfl
@[simp] theorem State.setX_p (v : Byte) : (s.setX v).p = s.p := rfl
@[simp] theorem State.setX_rs (v : Byte) : (s.setX v).rs = s.rs := rfl
@[simp] theorem State.setX_fr (v : Byte) : (s.setX v).fr = s.fr := rfl
@[simp] theorem State.setX_image (v : Byte) : (s.setX v).image = s.image := rfl

@[simp] theorem State.setPc_a (v : Offset) : (s.setPc v).a = s.a := rfl
@[simp] theorem State.setPc_x (v : Offset) : (s.setPc v).x = s.x := rfl
@[simp] theorem State.setPc_y (v : Offset) : (s.setPc v).y = s.y := rfl
@[simp] theorem State.setPc_pc (v : Offset) : (s.setPc v).pc = v := rfl
@[simp] theorem State.setPc_sp (v : Offset) : (s.setPc v).sp = s.sp := rfl
@[simp] theorem State.setPc_p (v : Offset) : (s.setPc v).p = s.p := rfl
@[simp] theorem State.setPc_rs (v : Offset) : (s.setPc v).rs = s.rs := rfl
@[simp] theorem State.setPc_fr (v : Offset) : (s.setPc v).fr = s.fr := rfl
@[simp] theorem State.setPc_image (v : Offset) : (s.setPc v).image = s.image := rfl

@[simp] theorem State.setRs_a (r : RunState) : (s.setRs r).a = s.a := rfl
@[simp] theorem State.setRs_x (r : RunState) : (s.setRs r).x = s.x := rfl
@[simp] theorem State.setRs_y (r : RunState) : (s.setRs r).y = s.y := rfl
@[simp] theorem State.setRs_pc (r : RunState) : (s.setRs r).pc = s.pc := rfl
@[simp] theorem State.setRs_sp (r : RunState) : (s.setRs r).sp = s.sp := rfl
@[simp] theorem State.setRs_p (r : RunState) : (s.setRs r).p = s.p := rfl
@[simp] theorem State.setRs_rs (r : RunState) : (s.setRs r).rs = r := rfl
@[simp] theorem State.setRs_fr (r : RunState) : (s.setRs r).fr = s.fr := rfl
@[simp] theorem State.setRs_image (r : RunState) : (s.setRs r).image = s.image := rfl

@[simp] theorem State.flagsFrom_a (v : Byte) : (s.flagsFrom v).a = s.a := rfl
@[simp] theorem State.flagsFrom_x (v : Byte) : (s.flagsFrom v).x = s.x := rfl
@[simp] theorem State.flagsFrom_y (v : Byte) : (s.flagsFrom v).y = s.y := rfl
@[simp] theorem State.flagsFrom_pc (v : Byte) : (s.flagsFrom v).pc = s.pc := rfl
@[simp] theorem State.flagsFrom_sp (v : Byte) : (s.flagsFrom v).sp = s.sp := rfl
@[simp] theorem State.flagsFrom_p (v : Byte) : (s.flagsFrom v).p = updateZN v s.p := rfl
@[simp] theorem State.flagsFrom_rs (v : Byte) : (s.flagsFrom v).rs = s.rs := rfl
@[simp] theorem State.flagsFrom_fr (v : Byte) : (s.flagsFrom v).fr = s.fr := rfl
@[simp] theorem State.flagsFrom_image (v : Byte) : (s.flagsFrom v).image = s.image := rfl

@[simp] theorem State.takeFault_a (f : FaultRecord) : (s.takeFault f).a = s.a := rfl
@[simp] theorem State.takeFault_x (f : FaultRecord) : (s.takeFault f).x = s.x := rfl
@[simp] theorem State.takeFault_y (f : FaultRecord) : (s.takeFault f).y = s.y := rfl
@[simp] theorem State.takeFault_pc (f : FaultRecord) : (s.takeFault f).pc = s.pc := rfl
@[simp] theorem State.takeFault_sp (f : FaultRecord) : (s.takeFault f).sp = s.sp := rfl
@[simp] theorem State.takeFault_p (f : FaultRecord) : (s.takeFault f).p = s.p := rfl
@[simp] theorem State.takeFault_rs (f : FaultRecord) : (s.takeFault f).rs = .faulted := rfl
@[simp] theorem State.takeFault_fr (f : FaultRecord) : (s.takeFault f).fr = some f := rfl
@[simp] theorem State.takeFault_image (f : FaultRecord) : (s.takeFault f).image = s.image := rfl

@[simp] theorem State.bindAndRun_a (prog : List Byte) : (s.bindAndRun prog).a = s.a := rfl
@[simp] theorem State.bindAndRun_x (prog : List Byte) : (s.bindAndRun prog).x = s.x := rfl
@[simp] theorem State.bindAndRun_y (prog : List Byte) : (s.bindAndRun prog).y = s.y := rfl
@[simp] theorem State.bindAndRun_pc (prog : List Byte) : (s.bindAndRun prog).pc = 0x0000#16 := rfl
@[simp] theorem State.bindAndRun_sp (prog : List Byte) : (s.bindAndRun prog).sp = s.sp := rfl
@[simp] theorem State.bindAndRun_p (prog : List Byte) : (s.bindAndRun prog).p = s.p := rfl
@[simp] theorem State.bindAndRun_rs (prog : List Byte) : (s.bindAndRun prog).rs = .running := rfl
@[simp] theorem State.bindAndRun_fr (prog : List Byte) : (s.bindAndRun prog).fr = s.fr := rfl
@[simp] theorem State.bindAndRun_image (prog : List Byte) : (s.bindAndRun prog).image = some (Memory.ofBytes prog) := rfl

@[simp] theorem State.releaseImage_a : s.releaseImage.a = s.a := rfl
@[simp] theorem State.releaseImage_x : s.releaseImage.x = s.x := rfl
@[simp] theorem State.releaseImage_y : s.releaseImage.y = s.y := rfl
@[simp] theorem State.releaseImage_pc : s.releaseImage.pc = s.pc := rfl
@[simp] theorem State.releaseImage_sp : s.releaseImage.sp = s.sp := rfl
@[simp] theorem State.releaseImage_p : s.releaseImage.p = s.p := rfl
@[simp] theorem State.releaseImage_rs : s.releaseImage.rs = s.rs := rfl
@[simp] theorem State.releaseImage_fr : s.releaseImage.fr = s.fr := rfl
@[simp] theorem State.releaseImage_image : s.releaseImage.image = none := rfl
@[simp] theorem State.releaseImage_imageByte (k : Nat) : s.releaseImage.imageByte k = none := rfl
@[simp] theorem State.releaseImage_imageLength : s.releaseImage.imageLength = 0 := rfl
@[simp] theorem State.releaseImage_bytesFrom (k : Nat) : s.releaseImage.bytesFrom k = [] := by cases k <;> rfl
@[simp] theorem State.releaseImage_imageWf : s.releaseImage.imageWf = true := rfl

@[simp] theorem State.atEndOfRun_a : s.atEndOfRun.a = s.a := by unfold State.atEndOfRun; split <;> rfl
@[simp] theorem State.atEndOfRun_x : s.atEndOfRun.x = s.x := by unfold State.atEndOfRun; split <;> rfl
@[simp] theorem State.atEndOfRun_y : s.atEndOfRun.y = s.y := by unfold State.atEndOfRun; split <;> rfl
@[simp] theorem State.atEndOfRun_pc : s.atEndOfRun.pc = s.pc := by unfold State.atEndOfRun; split <;> rfl
@[simp] theorem State.atEndOfRun_sp : s.atEndOfRun.sp = s.sp := by unfold State.atEndOfRun; split <;> rfl
@[simp] theorem State.atEndOfRun_p : s.atEndOfRun.p = s.p := by unfold State.atEndOfRun; split <;> rfl
@[simp] theorem State.atEndOfRun_rs : s.atEndOfRun.rs = s.rs := by unfold State.atEndOfRun; split <;> rfl
@[simp] theorem State.atEndOfRun_fr : s.atEndOfRun.fr = s.fr := by unfold State.atEndOfRun; split <;> rfl

theorem State.atEndOfRun_running {s : State} (h : s.rs = .running) : s.atEndOfRun = s := by
  simp [State.atEndOfRun, h]

theorem State.atEndOfRun_ended {s : State} (h : s.rs ≠ .running) : s.atEndOfRun = s.releaseImage := by
  cases hr : s.rs <;> simp_all [State.atEndOfRun]

@[simp] theorem State.setA_imageByte (v : Byte) (k : Nat) : (s.setA v).imageByte k = s.imageByte k := rfl
@[simp] theorem State.setA_imageLength (v : Byte) : (s.setA v).imageLength = s.imageLength := rfl
@[simp] theorem State.setA_bytesFrom (v : Byte) (k : Nat) : (s.setA v).bytesFrom k = s.bytesFrom k := rfl
@[simp] theorem State.setA_imageWf (v : Byte) : (s.setA v).imageWf = s.imageWf := rfl

@[simp] theorem State.setX_imageByte (v : Byte) (k : Nat) : (s.setX v).imageByte k = s.imageByte k := rfl
@[simp] theorem State.setX_imageLength (v : Byte) : (s.setX v).imageLength = s.imageLength := rfl
@[simp] theorem State.setX_bytesFrom (v : Byte) (k : Nat) : (s.setX v).bytesFrom k = s.bytesFrom k := rfl
@[simp] theorem State.setX_imageWf (v : Byte) : (s.setX v).imageWf = s.imageWf := rfl

@[simp] theorem State.setPc_imageByte (v : Offset) (k : Nat) : (s.setPc v).imageByte k = s.imageByte k := rfl
@[simp] theorem State.setPc_imageLength (v : Offset) : (s.setPc v).imageLength = s.imageLength := rfl
@[simp] theorem State.setPc_bytesFrom (v : Offset) (k : Nat) : (s.setPc v).bytesFrom k = s.bytesFrom k := rfl
@[simp] theorem State.setPc_imageWf (v : Offset) : (s.setPc v).imageWf = s.imageWf := rfl

@[simp] theorem State.setRs_imageByte (r : RunState) (k : Nat) : (s.setRs r).imageByte k = s.imageByte k := rfl
@[simp] theorem State.setRs_imageLength (r : RunState) : (s.setRs r).imageLength = s.imageLength := rfl
@[simp] theorem State.setRs_bytesFrom (r : RunState) (k : Nat) : (s.setRs r).bytesFrom k = s.bytesFrom k := rfl
@[simp] theorem State.setRs_imageWf (r : RunState) : (s.setRs r).imageWf = s.imageWf := rfl

@[simp] theorem State.flagsFrom_imageByte (v : Byte) (k : Nat) : (s.flagsFrom v).imageByte k = s.imageByte k := rfl
@[simp] theorem State.flagsFrom_imageLength (v : Byte) : (s.flagsFrom v).imageLength = s.imageLength := rfl
@[simp] theorem State.flagsFrom_bytesFrom (v : Byte) (k : Nat) : (s.flagsFrom v).bytesFrom k = s.bytesFrom k := rfl
@[simp] theorem State.flagsFrom_imageWf (v : Byte) : (s.flagsFrom v).imageWf = s.imageWf := rfl

@[simp] theorem State.takeFault_imageByte (f : FaultRecord) (k : Nat) : (s.takeFault f).imageByte k = s.imageByte k := rfl
@[simp] theorem State.takeFault_imageLength (f : FaultRecord) : (s.takeFault f).imageLength = s.imageLength := rfl
@[simp] theorem State.takeFault_bytesFrom (f : FaultRecord) (k : Nat) : (s.takeFault f).bytesFrom k = s.bytesFrom k := rfl
@[simp] theorem State.takeFault_imageWf (f : FaultRecord) : (s.takeFault f).imageWf = s.imageWf := rfl

end Sys2Proof.Machine
end

