-- ==== Sys2Proof/Laws/Events.lean ====
section
/-! SUPPORT. Laws/Events.lean: everything START and a host write can answer. -/

namespace Sys2Proof.Machine

theorem start_next {prog : List Byte} {s t : State} :
    start prog s = .next t ↔
      s.rs = .halted ∧ prog.length ≤ Config.maxImageLength ∧ t = s.bindAndRun prog := by
  unfold start
  cases s.rs <;> simp
  split <;> simp_all [eq_comm]

theorem hostWrite_next {w : HostWrite} {s t : State} :
    hostWrite w s = .next t ↔ s.rs = .halted ∧ t = s.preset w := by
  unfold hostWrite
  cases s.rs <;> simp [eq_comm]

/-- A host write changes none of the run state, the fault record and the image. -/
theorem State.preset_frame (s : State) (w : HostWrite) :
    (s.preset w).rs = s.rs ∧ (s.preset w).fr = s.fr ∧ (s.preset w).image = s.image := by
  cases w <;> exact ⟨rfl, rfl, rfl⟩

@[simp] theorem State.bindAndRun_imageLength (s : State) (prog : List Byte) :
    (s.bindAndRun prog).imageLength = prog.length := Memory.length_ofBytes prog

@[simp] theorem State.bindAndRun_bytesFrom (s : State) (prog : List Byte) (k : Nat) :
    (s.bindAndRun prog).bytesFrom k = prog.drop k := by
  simp [State.bytesFrom]

theorem State.bindAndRun_imageWf {prog : List Byte} (h : prog.length ≤ Config.maxImageLength) (s : State) :
    (s.bindAndRun prog).imageWf = true := Memory.wf_ofBytes h

end Sys2Proof.Machine
end

