-- ==== Sys2Proof/Laws/Ops.lean ====
section
/-! SUPPORT. Laws/Ops.lean: one law per shared operation, saying everything it can answer. -/

namespace Sys2Proof.Machine

/-- MemRead either returns the byte of the image below L, or raises OutOfBounds at that offset. -/
theorem State.memRead_cases (s : State) (addr : Offset) :
    (∃ b, s.memRead addr = .ok b ∧ s.imageByte addr.toNat = some b ∧ addr.toNat < s.imageLength) ∨
    (s.memRead addr = .error (.outOfBounds addr) ∧
      (s.imageLength ≤ addr.toNat ∨ s.imageByte addr.toNat = none)) := by
  unfold State.memRead
  split
  · exact .inr ⟨rfl, .inl ‹_›⟩
  · cases hb : s.imageByte addr.toNat with
    | none => exact .inr ⟨rfl, .inr rfl⟩
    | some b => exact .inl ⟨b, rfl, rfl, by omega⟩

/-- In an image of the canonical form an OutOfBounds read is a read at or past L. -/
theorem State.memRead_wf {s : State} (h : s.imageWf = true) (addr : Offset) :
    (∃ b, s.memRead addr = .ok b ∧ s.imageByte addr.toNat = some b ∧ addr.toNat < s.imageLength) ∨
    (s.memRead addr = .error (.outOfBounds addr) ∧ s.imageLength ≤ addr.toNat) := by
  rcases s.memRead_cases addr with h1 | ⟨h1, h2 | h2⟩
  · exact .inl h1
  · exact .inr ⟨h1, h2⟩
  · have := State.imageByte_isSome h addr.toNat
    rw [h2] at this
    simp at this
    exact .inr ⟨h1, this⟩

/-- Fetch, in a state whose image has its canonical form: the byte at PC with PC one on, or OutOfBounds at PC with the
state as it was. -/
theorem State.fetch_wf {s : State} (h : s.imageWf = true) :
    (∃ b, s.fetch = .got b (s.setPc (s.pc + 1#16)) ∧ s.imageByte s.pc.toNat = some b ∧
      s.pc.toNat < s.imageLength ∧ (s.pc + 1#16).toNat = s.pc.toNat + 1) ∨
    (s.fetch = .raised (.outOfBounds s.pc) s ∧ s.imageLength ≤ s.pc.toNat) := by
  have hL := State.imageLength_le h
  unfold State.fetch
  rcases State.memRead_wf h s.pc with ⟨b, h1, h2, h3⟩ | ⟨h1, h2⟩
  · refine .inl ⟨b, ?_, h2, h3, ?_⟩
    · have hne : ¬ s.pc = 0xFFFF#16 := by
        intro he
        rw [he] at h3
        simp [Config.maxImageLength] at hL h3
        omega
      simp [h1, hne]
    · simp only [Config.maxImageLength] at hL
      rw [BitVec.toNat_add]
      simp
      omega
  · exact .inr ⟨by simp [h1], h2⟩

/-- Fetch where the byte at PC is known. -/
theorem State.fetch_of_byte {s : State} {b : Byte} (h : s.imageWf = true) (hb : s.imageByte s.pc.toNat = some b) :
    s.fetch = .got b (s.setPc (s.pc + 1#16)) ∧ s.pc.toNat < s.imageLength ∧ (s.pc + 1#16).toNat = s.pc.toNat + 1 := by
  rcases State.fetch_wf h with ⟨b', h1, h2, h3, h4⟩ | ⟨_, h2⟩
  · rw [hb] at h2
    cases h2
    exact ⟨h1, h3, h4⟩
  · rw [State.imageByte_none h h2] at hb
    cases hb

/-- The fetch half of a STEP, in a state whose image has its canonical form: OutOfBounds at the opcode, OutOfBounds at
the operand of a 0xA9, or an instruction with PC past its bytes. -/
theorem State.fetchInstr_wf {s : State} (h : s.imageWf = true) :
    (s.fetchInstr = .raised (.outOfBounds s.pc) s ∧ s.imageLength ≤ s.pc.toNat) ∨
    (s.imageByte s.pc.toNat = some 0x00#8 ∧ s.fetchInstr = .got .brk (s.setPc (s.pc + 1#16))) ∨
    (s.imageByte s.pc.toNat = some 0xAA#8 ∧ s.fetchInstr = .got .tax (s.setPc (s.pc + 1#16))) ∨
    (s.imageByte s.pc.toNat = some 0xE8#8 ∧ s.fetchInstr = .got .inx (s.setPc (s.pc + 1#16))) ∨
    (∃ b, b ∉ implementedOpcodes ∧ s.imageByte s.pc.toNat = some b ∧
      s.fetchInstr = .got (.unimplemented b) (s.setPc (s.pc + 1#16))) ∨
    (s.imageByte s.pc.toNat = some 0xA9#8 ∧ s.imageLength = s.pc.toNat + 1 ∧
      s.fetchInstr = .raised (.outOfBounds (s.pc + 1#16)) (s.setPc (s.pc + 1#16))) ∨
    (∃ m, s.imageByte s.pc.toNat = some 0xA9#8 ∧ s.imageByte (s.pc.toNat + 1) = some m ∧
      s.pc.toNat + 2 ≤ s.imageLength ∧ (s.pc + 1#16 + 1#16).toNat = s.pc.toNat + 2 ∧
      s.fetchInstr = .got (.lda m) (s.setPc (s.pc + 1#16 + 1#16))) := by
  rcases State.fetch_wf h with ⟨b, h1, h2, h3, h4⟩ | ⟨h1, h2⟩
  · unfold State.fetchInstr
    rw [h1]
    simp only [Fetched.andThen]
    rcases decodeOpcode_cases b with ⟨rfl, hd⟩ | ⟨rfl, hd⟩ | ⟨rfl, hd⟩ | ⟨rfl, hd⟩ | ⟨hb, hd⟩
    · exact .inr (.inl ⟨h2, by simp [State.fetchOperand, State.implied]⟩)
    · rcases State.fetch_wf (s := s.setPc (s.pc + 1#16)) (by simpa using h) with ⟨m, g1, g2, g3, g4⟩ | ⟨g1, g2⟩
      · refine .inr (.inr (.inr (.inr (.inr (.inr ⟨m, h2, ?_, ?_, ?_, ?_⟩)))))
        · simpa [h4] using g2
        · simp [h4] at g3; omega
        · rw [State.setPc_pc] at g4; omega
        · simp only [decodeOpcode_lda, State.fetchOperand, State.fetchImmediate]
          rw [g1]
          rfl
      · refine .inr (.inr (.inr (.inr (.inr (.inl ⟨h2, ?_, ?_⟩)))))
        · simp [h4] at g2; omega
        · simp only [decodeOpcode_lda, State.fetchOperand, State.fetchImmediate]
          rw [g1]
          rfl
    · exact .inr (.inr (.inl ⟨h2, by simp [State.fetchOperand, State.implied]⟩))
    · exact .inr (.inr (.inr (.inl ⟨h2, by simp [State.fetchOperand, State.implied]⟩)))
    · exact .inr (.inr (.inr (.inr (.inl ⟨b, hb, h2, by rw [hd]; rfl⟩))))
  · refine .inl ⟨?_, h2⟩
    unfold State.fetchInstr
    rw [h1]
    rfl

end Sys2Proof.Machine
end

