-- ==== Sys2Proof/Laws/PerInstr.lean ====
section
/-! SUPPORT. Laws/PerInstr.lean: laws of every instruction, one lemma per constructor of Instr. -/

namespace Sys2Proof.Laws.EncodedSize

/-- An encoding is as long as the instruction's size, 1 or 2 bytes (30_encoding.md R70). -/
def Statement (i : Instr) : Prop := (encode i).length = i.size ∧ 1 ≤ i.size ∧ i.size ≤ 2

theorem brk : Statement .brk := by unfold Statement; decide

theorem lda (imm8 : Byte) : Statement (.lda imm8) := by simp [Statement, encode, Instr.size]

theorem tax : Statement .tax := by unfold Statement; decide

theorem inx : Statement .inx := by unfold Statement; decide

theorem unimplemented (opcode : Byte) : Statement (.unimplemented opcode) := by simp [Statement, encode, Instr.size]

end Sys2Proof.Laws.EncodedSize
end

