-- ==== Sys2Proof/Laws/Step.lean ====
section
/-! SUPPORT. Laws/Step.lean: everything a STEP can do, said once. -/

namespace Sys2Proof.Machine

@[simp] theorem execBrk_next (s : State) : execBrk s = .next (s.setRs .halted) := rfl

@[simp] theorem execLda_next (m : Byte) (s : State) : execLda m s = .next ((s.setA m).flagsFrom m) := rfl

@[simp] theorem execTax_next (s : State) : execTax s = .next ((s.setX s.a).flagsFrom s.a) := rfl

@[simp] theorem execInx_next (s : State) : execInx s = .next ((s.setX (s.x + 1#8)).flagsFrom (s.x + 1#8)) := rfl

@[simp] theorem execUnimplemented_next (b : Byte) (s : State) :
    execUnimplemented b s = .next (s.takeFault (.unimplementedOpcode b (s.pc - 1#16))) := rfl

/-- A next state that ends the run is left without an image; any other is left as it is. -/
theorem releaseEnded_next (t : State) :
    releaseEnded (.next t) = .next (if t.rs = .running then t else t.releaseImage) := by
  cases h : t.rs <;> simp [releaseEnded, State.atEndOfRun, h]

theorem releaseEnded_eq_next {o : Host.Outcome State Fault Refusal} {t : State} (h : releaseEnded o = .next t) :
    ∃ u, o = .next u ∧ t = u.atEndOfRun := by
  cases o with
  | next u => cases h; exact ⟨u, rfl, rfl⟩
  | fault r => cases h
  | refused r => cases h

theorem step_running {s : State} (h : s.rs = .running) : step s = releaseEnded (dispatchFetched s.fetchInstr) := by
  simp [step, stepOnce, h]

theorem step_not_running {s : State} (h : s.rs ≠ .running) : step s = .fault (.notRunning s.rs) := by
  cases hr : s.rs <;> simp_all [step, stepOnce]

/-- The outcomes of a STEP in a running state whose image has its canonical form: the seven rows of Table R26. -/
theorem step_wf {s : State} (hr : s.rs = .running) (h : s.imageWf = true) :
    (s.imageLength ≤ s.pc.toNat ∧ step s = .next (s.takeFault (.outOfBounds s.pc)).releaseImage) ∨
    (s.imageByte s.pc.toNat = some 0x00#8 ∧ step s = .next ((s.setPc (s.pc + 1#16)).setRs .halted).releaseImage) ∨
    (s.imageByte s.pc.toNat = some 0xAA#8 ∧
      step s = .next (((s.setPc (s.pc + 1#16)).setX s.a).flagsFrom s.a)) ∨
    (s.imageByte s.pc.toNat = some 0xE8#8 ∧
      step s = .next (((s.setPc (s.pc + 1#16)).setX (s.x + 1#8)).flagsFrom (s.x + 1#8))) ∨
    (∃ b, b ∉ implementedOpcodes ∧ s.imageByte s.pc.toNat = some b ∧
      step s = .next ((s.setPc (s.pc + 1#16)).takeFault (.unimplementedOpcode b s.pc)).releaseImage) ∨
    (s.imageByte s.pc.toNat = some 0xA9#8 ∧ s.imageLength = s.pc.toNat + 1 ∧
      step s = .next ((s.setPc (s.pc + 1#16)).takeFault (.outOfBounds (s.pc + 1#16))).releaseImage) ∨
    (∃ m, s.imageByte s.pc.toNat = some 0xA9#8 ∧ s.imageByte (s.pc.toNat + 1) = some m ∧
      s.pc.toNat + 2 ≤ s.imageLength ∧ (s.pc + 1#16 + 1#16).toNat = s.pc.toNat + 2 ∧
      step s = .next (((s.setPc (s.pc + 1#16 + 1#16)).setA m).flagsFrom m)) := by
  rw [step_running hr]
  rcases State.fetchInstr_wf h with ⟨h1, h2⟩ | ⟨h1, h2⟩ | ⟨h1, h2⟩ | ⟨h1, h2⟩ | ⟨b, hb, h1, h2⟩ | ⟨h1, h2, h3⟩ |
    ⟨m, h1, h2, h3, h4, h5⟩
  · exact .inl ⟨h2, by rw [h1]; rfl⟩
  · exact .inr (.inl ⟨h1, by rw [h2]; rfl⟩)
  · exact .inr (.inr (.inl ⟨h1, by rw [h2]; simp [dispatchFetched, exec, releaseEnded_next, hr]⟩))
  · exact .inr (.inr (.inr (.inl ⟨h1, by rw [h2]; simp [dispatchFetched, exec, releaseEnded_next, hr]⟩)))
  · refine .inr (.inr (.inr (.inr (.inl ⟨b, hb, h1, ?_⟩))))
    rw [h2]
    simp [dispatchFetched, exec, releaseEnded_next]
  · exact .inr (.inr (.inr (.inr (.inr (.inl ⟨h1, h2, by rw [h3]; rfl⟩)))))
  · exact .inr (.inr (.inr (.inr (.inr (.inr ⟨m, h1, h2, h3, h4, by
      rw [h5]; simp [dispatchFetched, exec, releaseEnded_next, hr]⟩)))))

end Sys2Proof.Machine
end

