-- ==== Sys2Proof/Laws/Safety.lean ====
section
/-! SUPPORT. Laws/Safety.lean: what the invariant gives in each run state, the bytes at PC read one by one, and the
equations of a run's straight line, one per opcode. -/

namespace Sys2Proof.Machine

theorem State.Inv.running {s : State} (hr : s.rs = .running) (h : s.Inv) :
    s.imageWf = true ∧ s.image.isSome = true ∧ s.pc.toNat ≤ s.imageLength ∧ s.fr = none := by
  obtain ⟨hw, hp, hf⟩ := h
  simp only [State.pcInImage, hr, Bool.and_eq_true, decide_eq_true_eq] at hp
  refine ⟨hw, hp.1, hp.2, ?_⟩
  unfold State.faultRecordOk at hf
  cases hs : s.fr <;> simp_all

/-- Where no run goes on, no image is bound. -/
theorem State.Inv.notRunning {s : State} (hr : s.rs ≠ .running) (h : s.Inv) : s.image = none := by
  have hp := h.2.1
  unfold State.pcInImage at hp
  cases hs : s.rs <;> simp_all

theorem State.Inv.halted {s : State} (hr : s.rs = .halted) (h : s.Inv) : s.fr = none := by
  have hf := h.2.2
  unfold State.faultRecordOk at hf
  cases hs : s.fr <;> simp_all

theorem State.imageByte_lt {s : State} {k : Nat} {b : Byte} (h : s.imageWf = true) (hb : s.imageByte k = some b) :
    k < s.imageLength := by
  rw [← State.imageByte_isSome h, hb]
  rfl

/-- PC + 1 does not overflow below L (10_state.md R27). -/
theorem State.pc_succ {s : State} (h : s.imageWf = true) (hk : s.pc.toNat < s.imageLength) :
    (s.pc + 1#16).toNat = s.pc.toNat + 1 := by
  have hL := State.imageLength_le h
  simp only [Config.maxImageLength] at hL
  rw [BitVec.toNat_add]
  simp
  omega

theorem State.bytesFrom_nil {s : State} (h : s.imageWf = true) {k : Nat} (hk : s.imageLength ≤ k) :
    s.bytesFrom k = [] := by
  have := State.bytesFrom_getElem h k 0
  rw [State.imageByte_none h (by omega)] at this
  cases hb : s.bytesFrom k <;> simp_all

theorem State.bytesFrom_cons {s : State} (h : s.imageWf = true) {k : Nat} {b : Byte} (hb : s.imageByte k = some b) :
    s.bytesFrom k = b :: s.bytesFrom (k + 1) := by
  apply List.ext_getElem?
  intro i
  rw [State.bytesFrom_getElem h]
  cases i with
  | zero => simp [hb]
  | succ i =>
    rw [List.getElem?_cons_succ, State.bytesFrom_getElem h]
    congr 1
    omega

/-- A run of `k + 1` steps whose first step answers a next state. -/
theorem core_run_succ {k : Nat} {s t : State} (h : step s = .next t) :
    Host.Core.run core (k + 1) s = Host.Core.run core k t := by
  have : core.step s = .next t := h
  simp only [Host.Core.run, this]

theorem reachesBrk_brk (rest : List Byte) : reachesBrk (0x00#8 :: rest) = true := by
  cases rest <;> simp [reachesBrk]

theorem reachesBrk_lda (m : Byte) (rest : List Byte) : reachesBrk (0xA9#8 :: m :: rest) = reachesBrk rest := by
  simp [reachesBrk]

theorem reachesBrk_tax (rest : List Byte) : reachesBrk (0xAA#8 :: rest) = reachesBrk rest := by
  cases rest <;> simp [reachesBrk]

theorem reachesBrk_inx (rest : List Byte) : reachesBrk (0xE8#8 :: rest) = reachesBrk rest := by
  cases rest <;> simp [reachesBrk]

theorem reachesBrk_unimplemented {b : Byte} (h : b ∉ implementedOpcodes) (rest : List Byte) :
    reachesBrk (b :: rest) = false := by
  cases rest <;> simp [reachesBrk, decodeOpcode_unimplemented h]

theorem executed_brk (rest : List Byte) : executed (0x00#8 :: rest) = [.brk] := by
  cases rest <;> simp [executed]

theorem executed_lda (m : Byte) (rest : List Byte) : executed (0xA9#8 :: m :: rest) = .lda m :: executed rest := by
  simp [executed]

theorem executed_tax (rest : List Byte) : executed (0xAA#8 :: rest) = .tax :: executed rest := by
  cases rest <;> simp [executed]

theorem executed_inx (rest : List Byte) : executed (0xE8#8 :: rest) = .inx :: executed rest := by
  cases rest <;> simp [executed]

theorem executed_unimplemented {b : Byte} (h : b ∉ implementedOpcodes) (rest : List Byte) :
    executed (b :: rest) = [] := by
  cases rest <;> simp [executed, decodeOpcode_unimplemented h]

end Sys2Proof.Machine
end

