-- ==== Sys2Proof/Tests/Slice0.lean ====
section
/-! SUPPORT. Tests/Slice0.lean: the WellFormed smoke test, words decoded by hand from 30_encoding.md, single STEPs from the
vectors of 95_test_vectors.md, and for each statement with hypotheses a witness that meets them together. -/

namespace Sys2Proof.Tests

open Sys2Proof.Machine

/-! ## Helpers -/

/-- The fresh Processor of the vectors' start states, running `prog` at offset `pc`. -/
def runAt (prog : List Byte) (pc : Offset) : State := { State.reset.bindAndRun prog with pc := pc }

/-- Does an outcome answer a next state that passes a check? -/
def nextIs (o : Host.Outcome State Fault Refusal) (ok : State → Bool) : Bool :=
  match o with
  | .next t => ok t
  | .fault _ => false
  | .refused _ => false

/-! ## WellFormed and the decoder -/

/-- The catch-all refuses each of the four implemented bytes (30_encoding.md R77). -/
theorem test_wellFormed_refuses_implemented_bytes :
    (Instr.unimplemented 0x00#8).wellFormed = false ∧ (Instr.unimplemented 0xA9#8).wellFormed = false ∧
    (Instr.unimplemented 0xAA#8).wellFormed = false ∧ (Instr.unimplemented 0xE8#8).wellFormed = false := by decide

theorem test_wellFormed_accepts :
    Instr.brk.wellFormed = true ∧ (Instr.lda 0x00#8).wellFormed = true ∧ Instr.tax.wellFormed = true ∧
    Instr.inx.wellFormed = true ∧ (Instr.unimplemented 0xEA#8).wellFormed = true := by decide

/-- Table R75, BRK: 0b00000000. -/
theorem test_decode_brk : decodeTableWord 8 0b00000000 = some .brk := by decide

/-- Table R75, LDA: 0b10101001, the operand in the next byte (bits 15..8 of the table word). -/
theorem test_decode_lda : decodeTableWord 16 0b1011001010101001 = some (.lda 0xB2#8) := by decide

/-- Table R75, TAX: 0b10101010. -/
theorem test_decode_tax : decodeTableWord 8 0b10101010 = some .tax := by decide

/-- Table R75, INX: 0b11101000. -/
theorem test_decode_inx : decodeTableWord 8 0b11101000 = some .inx := by decide

/-- 95_test_vectors.md section 10: 0xEA and 0xA5 are unimplemented. -/
theorem test_decode_unimplemented :
    decodeTableWord 8 0b11101010 = some (.unimplemented 0xEA#8) ∧
    decodeTableWord 8 0b10100101 = some (.unimplemented 0xA5#8) := by decide

/-- The neighbours of the implemented bytes (vectors T-UNI-3 to T-UNI-6). -/
theorem test_decode_neighbours :
    decodeOpcode 0xA8#8 = .unimplemented 0xA8#8 ∧ decodeOpcode 0xAB#8 = .unimplemented 0xAB#8 ∧
    decodeOpcode 0xE7#8 = .unimplemented 0xE7#8 ∧ decodeOpcode 0xE9#8 = .unimplemented 0xE9#8 ∧
    decodeOpcode 0x01#8 = .unimplemented 0x01#8 ∧ decodeOpcode 0xFF#8 = .unimplemented 0xFF#8 := by decide

/-- 30_encoding.md R76 and R77: 252 of the 256 byte values are unimplemented. -/
theorem test_decode_counts :
    (List.range 256).countP (fun n => !implementedOpcodes.contains (BitVec.ofNat 8 n)) = 252 := by decide +kernel

/-- A table word placed by withFetchWord is what the next step runs, from reset. -/
theorem test_withFetchWord_runs_lda :
    nextIs (step (State.reset.withFetchWord 16 0x05A9)) (fun t => t.a == 0x05#8 && t.pc == 2#16) = true := by decide

/-! ## Flags (95_test_vectors.md section 2) -/

/-- F-10, F-12: the six reserved bits survive. -/
theorem test_flags_keep_reserved : updateZN 0x00#8 0x7D#8 = 0x7F#8 ∧ updateZN 0xC0#8 0x7D#8 = 0xFD#8 := by decide

/-- F-13, F-14, F-9: stale flags are cleared. -/
theorem test_flags_clear_stale :
    updateZN 0x00#8 0xFF#8 = 0x7F#8 ∧ updateZN 0x7F#8 0xFF#8 = 0x7D#8 ∧ updateZN 0x80#8 0x82#8 = 0x80#8 := by decide

/-! ## One STEP for each instruction (95_test_vectors.md sections 3 to 8) -/

/-- T-BRK-2: every register and all eight bits of P survive; the byte after the BRK does not matter. -/
theorem test_brk_writes_only_rs :
    nextIs (step { runAt [0x00#8, 0xEA#8] 0 with a := 0x12#8, x := 0x34#8, y := 0x56#8, sp := 0xBEEF#16, p := 0xFF#8 })
      (fun t => t.view == ⟨0x12#8, 0x34#8, 0x56#8, 1#16, 0xBEEF#16, 0xFF#8, .halted, none⟩) = true := by decide

/-- T-BRK-3, last STEP: PC ends equal to L. -/
theorem test_brk_as_last_byte :
    nextIs (step (runAt [0xE8#8, 0x00#8] 1)) (fun t => t.pc == 2#16 && t.rs == .halted) = true := by decide

/-- T-LDA-7. -/
theorem test_lda_zero_keeps_reserved :
    nextIs (step { runAt [0xA9#8, 0x00#8, 0x00#8] 0 with p := 0xFD#8 })
      (fun t => t.a == 0x00#8 && t.p == 0x7F#8 && t.pc == 2#16 && t.rs == .running) = true := by decide

/-- T-LDA-8: an operand equal to the TAX opcode is data. -/
theorem test_lda_operand_is_data :
    nextIs (step { runAt [0xA9#8, 0xAA#8, 0x00#8] 0 with x := 0x11#8 })
      (fun t => t.a == 0xAA#8 && t.x == 0x11#8 && t.p == 0x80#8) = true := by decide

/-- T-TAX-3: flags from A after the write, not from the old X. -/
theorem test_tax_flags :
    nextIs (step { runAt [0xAA#8, 0x00#8] 0 with a := 0x80#8, x := 0x01#8, p := 0x02#8 })
      (fun t => t.a == 0x80#8 && t.x == 0x80#8 && t.p == 0x80#8 && t.pc == 1#16) = true := by decide

/-- T-TAX-2. -/
theorem test_tax_zero :
    nextIs (step { runAt [0xAA#8, 0x00#8] 0 with x := 0x55#8, p := 0x80#8 })
      (fun t => t.x == 0x00#8 && t.p == 0x02#8) = true := by decide

/-- T-INX-6: the wrap, with every bit of P set before. -/
theorem test_inx_wraps :
    nextIs (step { runAt [0xE8#8, 0x00#8] 0 with x := 0xFF#8, p := 0xFF#8 })
      (fun t => t.x == 0x00#8 && t.p == 0x7F#8 && t.pc == 1#16) = true := by decide

/-- T-INX-2: crossing into bit 7. -/
theorem test_inx_negative :
    nextIs (step { runAt [0xE8#8, 0x00#8] 0 with x := 0x7F#8 }) (fun t => t.x == 0x80#8 && t.p == 0x80#8) = true := by
  decide

/-- T-UNI-7. -/
theorem test_unimplemented_keeps_registers :
    nextIs (step { runAt [0xEA#8] 0 with a := 0x01#8, x := 0x02#8, y := 0x03#8, sp := 0x0004#16, p := 0xFF#8 })
      (fun t => t.view ==
        ⟨0x01#8, 0x02#8, 0x03#8, 1#16, 0x0004#16, 0xFF#8, .faulted, some (.unimplementedOpcode 0xEA#8 0#16)⟩) = true := by
  decide

/-- T-UNI-10, second STEP: the recorded offset is that of the opcode byte. -/
theorem test_unimplemented_offset :
    nextIs (step (runAt [0xA9#8, 0x05#8, 0xEA#8, 0x00#8] 2))
      (fun t => t.pc == 3#16 && t.fr == some (.unimplementedOpcode 0xEA#8 2#16)) = true := by decide

/-- T-OOB-1: the empty image. -/
theorem test_outOfBounds_empty :
    nextIs (step (runAt [] 0)) (fun t => t.pc == 0#16 && t.rs == .faulted && t.fr == some (.outOfBounds 0#16)) = true := by
  decide

/-- T-OOB-2: LDA's operand fetch faults, with A and P unwritten. -/
theorem test_outOfBounds_operand :
    nextIs (step { runAt [0xA9#8] 0 with a := 0x33#8, p := 0x80#8 })
      (fun t => t.a == 0x33#8 && t.p == 0x80#8 && t.pc == 1#16 && t.fr == some (.outOfBounds 1#16)) = true := by decide

/-- S4: a preset A, the run of TAX and BRK. -/
theorem test_interpret_s4 :
    nextIs (interpret [0xAA#8, 0x00#8] (State.reset.preset (.a 0x06#8)))
      (fun t => t.x == 0x06#8 && t.pc == 2#16 && t.p == 0x00#8 && t.rs == .halted) = true := by decide

/-- R175: BRK ends the run and the image goes; INX does not end it and the image stays. -/
theorem test_image_released :
    nextIs (step (runAt [0x00#8] 0)) (fun t => t.image == none) = true ∧
    nextIs (step (runAt [0xE8#8] 0)) (fun t => t.image == some [(0, 0xE8#8)]) = true := by decide

/-- 92 D2: an image of 65536 bytes is refused. -/
theorem test_start_refuses_long (prog : List Byte) (h : prog.length = 65536) :
    start prog State.reset = .refused .imageTooLong := by
  simp [start, State.reset, Config.maxImageLength, h]

/-! ## Witnesses: for each statement with hypotheses, a state and operands that meet them together -/

theorem witness_EveryStepKeepsInv : ∃ s t : State, s.Inv ∧ step s = .next t :=
  ⟨runAt [0xA9#8] 0, _, by decide, rfl⟩

theorem witness_HostEventsKeepInv_reset : ∃ t : State, Event.reset ≠ .step ∧ (runAt [0xEA#8] 1).Inv ∧
    transition .reset (runAt [0xEA#8] 1) = .next t := ⟨_, by decide, by decide, rfl⟩

theorem witness_HostEventsKeepInv_start : ∃ t : State, Event.start [] ≠ .step ∧ State.reset.Inv ∧
    transition (.start []) State.reset = .next t := ⟨_, by decide, by decide, rfl⟩

theorem witness_HostEventsKeepInv_write : ∃ t : State, Event.write (.pc 0xFFFF#16) ≠ .step ∧ State.reset.Inv ∧
    transition (.write (.pc 0xFFFF#16)) State.reset = .next t := ⟨_, by decide, by decide, rfl⟩

theorem witness_DecodeInvertsEncode_wellFormed : (Instr.unimplemented 0xFF#8).wellFormed = true := by decide

theorem witness_DecodeInvertsEncode_decode : decode [0xA9#8, 0xFF#8, 0x00#8] = .ok (.lda 0xFF#8, [0x00#8]) := rfl

theorem witness_DecodeInvertsEncode_injective :
    (Instr.unimplemented 0x01#8).wellFormed = true ∧ encode (.unimplemented 0x01#8) = encode (.unimplemented 0x01#8) := by
  decide

theorem witness_StepRunsDecodedInstruction : (runAt [0xE8#8, 0xA9#8, 0x05#8] 1).Inv ∧
    (runAt [0xE8#8, 0xA9#8, 0x05#8] 1).rs = .running ∧
    decode ((runAt [0xE8#8, 0xA9#8, 0x05#8] 1).bytesFrom 1) = .ok (.lda 0x05#8, []) := ⟨by decide, rfl, rfl⟩

theorem witness_StepFaultsWhenBytesRunOut_opcode : (runAt [0xE8#8] 1).Inv ∧ (runAt [0xE8#8] 1).rs = .running ∧
    decode ((runAt [0xE8#8] 1).bytesFrom 1) = .error .noOpcodeByte := ⟨by decide, rfl, rfl⟩

theorem witness_StepFaultsWhenBytesRunOut_operand : (runAt [0xA9#8] 0).Inv ∧ (runAt [0xA9#8] 0).rs = .running ∧
    decode ((runAt [0xA9#8] 0).bytesFrom 0) = .error .noOperandByte := ⟨by decide, rfl, rfl⟩

theorem witness_StepEnabledIffRunning_running : ∃ t, (runAt [] 0).Inv ∧ step (runAt [] 0) = .next t ∧ (runAt [] 0).rs = .running :=
  ⟨_, by decide, rfl, rfl⟩

theorem witness_StepEnabledIffRunning_halted : State.reset.rs = .halted ∨ State.reset.rs = .faulted := by decide

theorem witness_StepEnabledIffRunning_faulted :
    ((runAt [0xEA#8] 1).takeFault (.unimplementedOpcode 0xEA#8 0#16)).rs = .halted ∨
    ((runAt [0xEA#8] 1).takeFault (.unimplementedOpcode 0xEA#8 0#16)).rs = .faulted := by decide

theorem witness_StepEnabledIffRunning_start : ∃ t, start [0x00#8] State.reset = .next t := ⟨_, rfl⟩

theorem witness_MemReadIsBounded_past : (runAt [0x00#8] 1).imageLength ≤ (1#16 : Offset).toNat ∧
    (runAt [0x00#8] 1).imageLength ≤ (runAt [0x00#8] 1).pc.toNat := by decide

theorem witness_MemReadIsBounded_below : (runAt [0x00#8, 0xE8#8] 0).imageWf = true ∧
    (1#16 : Offset).toNat < (runAt [0x00#8, 0xE8#8] 0).imageLength := by decide

theorem witness_MemReadIsBounded_start : ∃ t, start [0xE8#8] State.reset = .next t ∧
    [0xE8#8].length ≤ (1#16 : Offset).toNat ∧ (0#16 : Offset).toNat < [0xE8#8].length :=
  ⟨_, rfl, by decide, by decide⟩

theorem witness_FetchReadsThenAdvances_byte : (runAt [0xE8#8, 0x00#8] 1).Inv ∧ (runAt [0xE8#8, 0x00#8] 1).rs = .running ∧
    (runAt [0xE8#8, 0x00#8] 1).imageByte 1 = some 0x00#8 := by decide

theorem witness_FetchReadsThenAdvances_none : (runAt [0xE8#8, 0x00#8] 2).Inv ∧ (runAt [0xE8#8, 0x00#8] 2).rs = .running ∧
    (runAt [0xE8#8, 0x00#8] 2).imageByte 2 = none := by decide

theorem witness_UpdateZNRule : 6 ∈ [0, 2, 3, 4, 5, 6] := by decide

theorem witness_UpdateZNPatterns : (0x00#8 : Byte) = 0x00#8 ∧
    (1 ≤ (0x7F#8 : Byte).toNat ∧ (0x7F#8 : Byte).toNat ≤ 127) ∧
    (128 ≤ (0x80#8 : Byte).toNat ∧ (0x80#8 : Byte).toNat ≤ 255) := by decide

theorem witness_BrkHaltsAndNothingElse : (runAt [0x00#8] 0).Inv ∧ (runAt [0x00#8] 0).atOpcode 0x00#8 := by decide

theorem witness_LdaLaw_step : (runAt [0xA9#8, 0x80#8] 0).Inv ∧ (runAt [0xA9#8, 0x80#8] 0).atOpcode 0xA9#8 ∧
    (runAt [0xA9#8, 0x80#8] 0).imageByte 1 = some 0x80#8 := by decide

theorem witness_BrkHaltsAndNothingElse_halts : ∃ t, exec .brk (runAt [0x00#8] 1) = .next t ∧
    (runAt [0x00#8] 1).rs = .running ∧ t.rs = .halted ∧ ([] : List Byte).length ≤ 65535 := ⟨_, rfl, rfl, rfl, by decide⟩

theorem witness_LdaHandlerLoadsImmediate : ((runAt [0xA9#8, 0x7F#8] 0).Inv ∧ (runAt [0xA9#8, 0x7F#8] 0).atOpcode 0xA9#8 ∧
    (runAt [0xA9#8, 0x7F#8] 0).imageByte 1 = some 0x7F#8) ∧
    ((runAt [0xA9#8] 0).Inv ∧ (runAt [0xA9#8] 0).atOpcode 0xA9#8 ∧ (runAt [0xA9#8] 0).imageLength ≤ 0 + 1) := by decide

theorem witness_TaxHandlerCopiesAccumulator : (runAt [0xAA#8] 0).Inv ∧ (runAt [0xAA#8] 0).atOpcode 0xAA#8 := by decide

theorem witness_InxHandlerIncrements : (runAt [0xE8#8] 0).Inv ∧ (runAt [0xE8#8] 0).atOpcode 0xE8#8 := by decide

theorem witness_LdaLaw_decode : decode [0xA9#8, 0x00#8] = .ok (.lda 0x00#8, []) := rfl

theorem witness_TaxLaw : (runAt [0xAA#8, 0xAA#8] 0).Inv ∧ (runAt [0xAA#8, 0xAA#8] 0).atOpcode 0xAA#8 ∧
    (runAt [0xAA#8, 0xAA#8] 0).imageByte 1 = some 0xAA#8 := by decide

theorem witness_InxWraparoundLaw : (runAt [0xE8#8, 0xE8#8] 0).Inv ∧ (runAt [0xE8#8, 0xE8#8] 0).rs = .running ∧
    (∀ j, j < 2 → (runAt [0xE8#8, 0xE8#8] 0).imageByte (0 + j) = some 0xE8#8) := by decide

/-- The clause for 256 increments: the image of program P6, without its BRK. -/
theorem witness_InxWraparoundLaw_full : (runAt (List.replicate 256 0xE8#8) 0).Inv ∧
    (runAt (List.replicate 256 0xE8#8) 0).rs = .running ∧
    ∀ j, j < 256 → (runAt (List.replicate 256 0xE8#8) 0).imageByte (0 + j) = some 0xE8#8 := by
  decide +kernel

theorem witness_UnimplementedOpcodeFaults : (0x01#8 : Byte) ∉ [0x00#8, 0xA9#8, 0xAA#8, 0xE8#8] ∧
    (runAt [0x01#8] 1).pc.toNat = (0#16 : Offset).toNat + 1 ∧ (runAt [0x01#8] 0).Inv ∧ (runAt [0x01#8] 0).atOpcode 0x01#8 := by
  decide

theorem witness_HandlerFrames : (∃ t, exec .brk State.reset = .next t) ∧ (∃ t, exec (.lda 0xFF#8) State.reset = .next t) ∧
    (∃ t, exec .tax State.reset = .next t) ∧ (∃ t, exec .inx State.reset = .next t) ∧
    (∃ t, exec (.unimplemented 0xEA#8) State.reset = .next t) :=
  ⟨⟨_, rfl⟩, ⟨_, rfl⟩, ⟨_, rfl⟩, ⟨_, rfl⟩, ⟨_, rfl⟩⟩

/-- The seven rows of Table R26, each at the last offset it can stand at. -/
theorem witness_PcAtEndOfEachStep :
    ((runAt [0xE8#8] 1).Inv ∧ (runAt [0xE8#8] 1).rs = .running ∧ (runAt [0xE8#8] 1).imageLength ≤ 1) ∧
    ((runAt [0x00#8] 0).Inv ∧ (runAt [0x00#8] 0).imageByte 0 = some 0x00#8) ∧
    ((runAt [0xA9#8, 0x00#8] 0).Inv ∧ (runAt [0xA9#8, 0x00#8] 0).imageByte 0 = some 0xA9#8 ∧
      0 + 1 < (runAt [0xA9#8, 0x00#8] 0).imageLength) ∧
    ((runAt [0xA9#8] 0).Inv ∧ (runAt [0xA9#8] 0).imageByte 0 = some 0xA9#8 ∧ (runAt [0xA9#8] 0).imageLength ≤ 0 + 1) ∧
    ((runAt [0xAA#8] 0).Inv ∧ (runAt [0xAA#8] 0).imageByte 0 = some 0xAA#8) ∧
    ((runAt [0xE8#8] 0).Inv ∧ (runAt [0xE8#8] 0).imageByte 0 = some 0xE8#8) ∧
    ((runAt [0xFF#8] 0).Inv ∧ (runAt [0xFF#8] 0).imageByte 0 = some 0xFF#8 ∧
      (0xFF#8 : Byte) ∉ [0x00#8, 0xA9#8, 0xAA#8, 0xE8#8]) := by decide

theorem witness_FaultEntry : (∃ u f, (runAt [0xA9#8] 0).rs = .running ∧ (runAt [0xA9#8] 0).fetchInstr = .raised f u) ∧
    (∃ u, (runAt [0xEA#8] 0).rs = .running ∧ (runAt [0xEA#8] 0).fetchInstr = .got (.unimplemented 0xEA#8) u) :=
  ⟨⟨_, _, rfl, rfl⟩, ⟨_, rfl, rfl⟩⟩

theorem witness_FaultsArePrecise : (∃ t, (runAt [] 0).Inv ∧ step (runAt [] 0) = .next t ∧ t.rs = .faulted) ∧
    (∃ t, (runAt [0xEA#8] 0).Inv ∧ step (runAt [0xEA#8] 0) = .next t ∧ t.rs = .faulted) ∧
    (∃ t, (runAt [0xA9#8] 0).Inv ∧ step (runAt [0xA9#8] 0) = .next t ∧ t.rs = .faulted) :=
  ⟨⟨_, by decide, rfl, rfl⟩, ⟨_, by decide, rfl, rfl⟩, ⟨_, by decide, rfl, rfl⟩⟩

theorem witness_FaultCheckOrder :
    ((runAt [] 0).Inv ∧ (runAt [] 0).rs = .running ∧ (runAt [] 0).imageLength ≤ 0) ∧
    ((runAt [0xEA#8] 0).Inv ∧ (runAt [0xEA#8] 0).imageByte 0 = some 0xEA#8 ∧
      (0xEA#8 : Byte) ∉ [0x00#8, 0xA9#8, 0xAA#8, 0xE8#8]) ∧
    ((runAt [0xA9#8] 0).Inv ∧ (runAt [0xA9#8] 0).imageByte 0 = some 0xA9#8 ∧ (runAt [0xA9#8] 0).imageLength ≤ 0 + 1) ∧
    ((runAt [0xA9#8, 0x00#8] 0).Inv ∧ (runAt [0xA9#8, 0x00#8] 0).imageByte 0 = some 0xA9#8 ∧
      0 + 1 < (runAt [0xA9#8, 0x00#8] 0).imageLength) := by decide

theorem witness_OutOfBoundsSituations :
    ((runAt [] 0).Inv ∧ (runAt [] 0).rs = .running ∧ ∃ t, step (runAt [] 0) = .next t ∧ t.fr = some (.outOfBounds 0#16)) ∧
    ((runAt [0xA9#8] 0).Inv ∧ (runAt [0xA9#8] 0).rs = .running ∧
      ∃ t, step (runAt [0xA9#8] 0) = .next t ∧ t.fr = some (.outOfBounds 1#16)) :=
  ⟨⟨by decide, rfl, _, rfl, rfl⟩, ⟨by decide, rfl, _, rfl, rfl⟩⟩

theorem witness_OnlyResetAfterFault : ((runAt [] 0).takeFault (.outOfBounds 0#16)).rs = .faulted := rfl

theorem witness_StartBindsAndRuns : State.reset.rs = .halted ∧ ([] : List Byte).length ≤ 65535 ∧
    (runAt [] 0).rs ≠ .halted ∧ ((runAt [] 0).takeFault (.outOfBounds 0#16)).rs ≠ .halted ∧
    65535 < (List.replicate 65536 0x00#8).length :=
  ⟨rfl, by decide, by decide, by decide, by rw [List.length_replicate]; decide⟩

theorem witness_HostAccessByRunState : State.reset.rs = .halted ∧ (runAt [] 0).rs = .running ∧
    ((runAt [] 0).takeFault (.outOfBounds 0#16)).rs = .faulted ∧
    ∃ t, transition .reset ((runAt [] 0).takeFault (.outOfBounds 0#16)) = .next t :=
  ⟨rfl, rfl, rfl, _, rfl⟩

theorem witness_RunStateTransitions : (∃ t, transition (.start []) State.reset = .next t) ∧
    (∃ t, (runAt [0x00#8] 0).Inv ∧ transition .step (runAt [0x00#8] 0) = .next t) ∧
    (∃ t, transition (.write (.p 0xFF#8)) State.reset = .next t) :=
  ⟨⟨_, rfl⟩, ⟨_, by decide, rfl⟩, ⟨_, rfl⟩⟩

theorem witness_FaultRecordLife_step : ∃ t, (runAt [] 0).Inv ∧ transition .step (runAt [] 0) = .next t ∧ t.fr ≠ (runAt [] 0).fr :=
  ⟨_, by decide, rfl, by decide⟩

theorem witness_FaultRecordLife_reset : ∃ t, ((runAt [] 0).takeFault (.outOfBounds 0#16)).releaseImage.Inv ∧
    transition .reset ((runAt [] 0).takeFault (.outOfBounds 0#16)).releaseImage = .next t ∧
    t.fr ≠ ((runAt [] 0).takeFault (.outOfBounds 0#16)).releaseImage.fr :=
  ⟨_, by decide, rfl, by decide⟩

theorem witness_EveryRunEnds_run : State.reset.Inv ∧ State.reset.rs = .halted ∧ [0xE8#8].length ≤ 65535 := by decide

theorem witness_EveryRunEnds_step :
    (∃ t, (runAt [0xE8#8] 0).Inv ∧ (runAt [0xE8#8] 0).rs = .running ∧ step (runAt [0xE8#8] 0) = .next t ∧ t.rs ≠ .faulted) ∧
    (∃ t, (runAt [0xE8#8] 1).Inv ∧ (runAt [0xE8#8] 1).rs = .running ∧ step (runAt [0xE8#8] 1) = .next t ∧
      (runAt [0xE8#8] 1).pc.toNat = (runAt [0xE8#8] 1).imageLength) :=
  ⟨⟨_, by decide, rfl, rfl, by decide⟩, ⟨_, by decide, rfl, rfl, by decide⟩⟩

theorem witness_NormalEndIffReachesBrk : State.reset.Inv ∧ State.reset.rs = .halted ∧
    [0xA9#8, 0x00#8, 0x00#8].length ≤ 65535 ∧ reachesBrk [0xA9#8, 0x00#8, 0x00#8] = true ∧
    reachesBrk [0xA9#8, 0x00#8] = false := by decide

theorem witness_PcAtNormalEndCountsBytes : ∃ t, State.reset.Inv ∧
    interpret [0xA9#8, 0xC0#8, 0xAA#8, 0xE8#8, 0x00#8] State.reset = .next t ∧ t.normalEnd :=
  ⟨_, by decide, rfl, rfl⟩

theorem witness_RunFrame : ∃ t, State.reset.Inv ∧ interpret [0xA9#8, 0x05#8, 0xAA#8, 0xE8#8, 0xEA#8] State.reset = .next t ∧
    t.a ≠ State.reset.a ∧ t.x ≠ State.reset.x :=
  ⟨_, by decide, rfl, by decide, by decide⟩

theorem witness_RunFrame_flags : ∃ t, State.reset.Inv ∧ interpret [0xAA#8] State.reset = .next t ∧
    t.p ≠ State.reset.p := ⟨_, by decide, rfl, by decide⟩

theorem witness_RunFrame_image : ∃ u v, start [0xE8#8, 0x00#8] State.reset = .next u ∧
    Host.Core.run core 1 u = .next v ∧ v.rs = .running := ⟨_, _, rfl, rfl, rfl⟩

theorem witness_ImageIsReleasedAtEndOfRun : (∃ t, step (runAt [0xE8#8] 0) = .next t ∧ t.rs = .running) ∧
    (∃ t, step (runAt [0x00#8] 0) = .next t ∧ t.rs ≠ .running) ∧ (∃ t, step (runAt [0xEA#8] 0) = .next t ∧ t.rs ≠ .running) ∧
    (∃ t, State.reset.Inv ∧ interpret [0x00#8] State.reset = .next t) :=
  ⟨⟨_, rfl, rfl⟩, ⟨_, rfl, by decide⟩, ⟨_, rfl, by decide⟩, ⟨_, by decide, rfl⟩⟩

theorem witness_RegistersCarryOverBetweenRuns : ∃ t, interpret [0xA9#8, 0x80#8, 0x00#8] State.reset = .next t ∧
    t.normalEnd ∧ [0xAA#8, 0x00#8].length ≤ 65535 :=
  ⟨_, rfl, rfl, by decide⟩

theorem witness_BytesAfterBrkAreNeverRead : ∃ t, State.reset.Inv ∧ interpret [0x00#8] State.reset = .next t ∧
    t.normalEnd ∧ ([0x00#8] ++ [0xEA#8]).length ≤ 65535 := ⟨_, by decide, rfl, rfl, by decide⟩

theorem witness_YAndSpAreInert : ∃ t, step (runAt [0xE8#8] 0) = .next t := ⟨_, rfl⟩

theorem witness_StatusFlagsAreNeverRead : ∃ t, step (runAt [0xAA#8] 0) = .next t := ⟨_, rfl⟩

end Sys2Proof.Tests
end

section
/-! PROOFS. The state (10_state.md): RESET and the fresh Processor, the frames of the handlers, PC at the end of a STEP,
the life of RS and FR, and what a second START carries over. -/

namespace Sys2Proof.Machine

/-! ## The handlers, and what the flag update leaves -/

@[simp] theorem exec_brk (s : State) : exec .brk s = .next (s.setRs .halted) := rfl

@[simp] theorem exec_lda (m : Byte) (s : State) : exec (.lda m) s = .next ((s.setA m).flagsFrom m) := rfl

@[simp] theorem exec_tax (s : State) : exec .tax s = .next ((s.setX s.a).flagsFrom s.a) := rfl

@[simp] theorem exec_inx (s : State) :
    exec .inx s = .next ((s.setX (s.x + 1#8)).flagsFrom (s.x + 1#8)) := rfl

@[simp] theorem exec_unimplemented (b : Byte) (s : State) :
    exec (.unimplemented b) s = .next (s.takeFault (.unimplementedOpcode b (s.pc - 1#16))) := rfl

/-- The flag update writes bits 1 and 7 only, and the mask of the reserved bits has both of them clear (R35, R97). -/
@[simp] theorem reservedBits_updateZN (v p : Byte) : reservedBits (updateZN v p) = reservedBits p := by
  have hneg : v &&& 0x80#8 &&& reservedMask = 0#8 := by rw [BitVec.and_assoc]; exact BitVec.and_zero
  have hzero : (if v = 0x00#8 then 0x02#8 else 0x00#8) &&& reservedMask = 0#8 := by split <;> rfl
  simp only [reservedBits, updateZN, BitVec.and_or_distrib_right, hneg, hzero, BitVec.or_zero, BitVec.and_assoc,
    BitVec.and_self]

/-! ## RESET and the fresh Processor -/

/-- Settles O1: RESET answers the literal of Table R36, and no STEP is enabled in HALTED. -/
theorem resetGivesFreshProcessor : Obligations.ResetGivesFreshProcessor := by
  intro s
  refine ⟨State.reset, rfl, rfl, rfl, rfl, rfl, rfl, rfl, rfl, rfl, rfl, rfl, fun u hu => ?_⟩
  rw [step_not_running (by decide)] at hu
  cases hu

/-- Settles O2. -/
theorem invHoldsAtReset : Obligations.InvHoldsAtReset := by
  unfold Obligations.InvHoldsAtReset
  decide

/-! ## The frames of the handlers -/

/-- Settles O23, one handler at a time: each is a composition of named updates, whose fields are known. -/
theorem handlerFrames : Obligations.HandlerFrames := by
  intro i s t h
  cases i with
  | brk => rw [exec_brk] at h; cases h; simp
  | lda m => rw [exec_lda] at h; cases h; simp
  | tax => rw [exec_tax] at h; cases h; simp
  | inx => rw [exec_inx] at h; cases h; simp
  | unimplemented b => rw [exec_unimplemented] at h; cases h; simp

/-! ## PC at the end of a STEP -/

/-- Settles O24: the rows of Table R26 exclude each other by the byte at PC and by where the image ends. -/
theorem pcAtEndOfEachStep : Obligations.PcAtEndOfEachStep := by
  intro s hInv hr
  obtain ⟨hwf, -, -, hfr⟩ := State.Inv.running hr hInv
  have below {b : Byte} (hb : s.imageByte s.pc.toNat = some b) :
      ¬ s.imageLength ≤ s.pc.toNat ∧ (s.pc + 1#16).toNat = s.pc.toNat + 1 :=
    have hlt := State.imageByte_lt hwf hb
    ⟨by omega, State.pc_succ hwf hlt⟩
  rcases step_wf hr hwf with ⟨hL, hst⟩ | ⟨hb, hst⟩ | ⟨hb, hst⟩ | ⟨hb, hst⟩ | ⟨b, hun, hb, hst⟩ | ⟨hb, hL, hst⟩ |
    ⟨m, hb, hm, hL, hpc, hst⟩
  all_goals refine ⟨_, hst, ?_⟩
  · simp [State.imageByte_none hwf hL]
  · simp [hb, below hb, hfr]
  · simp [hb, below hb, hr]
  · simp [hb, below hb, hr]
  · simp only [implementedOpcodes, List.mem_cons, List.not_mem_nil, or_false, not_or] at hun
    simp [hb, below hb, hun]
  · simp [hb, below hb, hL]
  · have hlast : ¬ s.imageLength ≤ s.pc.toNat + 1 := by omega
    simp [hb, below hb, hm, hpc, hr, hlast]

/-! ## The life of RS and FR -/

theorem step_next_running {s t : State} (h : step s = .next t) : s.rs = .running := by
  refine Decidable.byContradiction fun hr => ?_
  rw [step_not_running hr] at h
  cases h

/-- How a STEP leaves RS and FR: it goes on, it halts on a 0x00, or it faults, and only then is a fault recorded. -/
theorem step_rs_fr {s t : State} (hInv : s.Inv) (h : step s = .next t) :
    (t.rs = .running ∧ t.fr = none ∧ s.imageByte s.pc.toNat ≠ some 0x00#8) ∨
    (t.rs = .halted ∧ t.fr = none ∧ s.imageByte s.pc.toNat = some 0x00#8) ∨
    (t.rs = .faulted ∧ t.fr ≠ none ∧ s.imageByte s.pc.toNat ≠ some 0x00#8) := by
  have hr := step_next_running h
  obtain ⟨hwf, -, -, hfr⟩ := State.Inv.running hr hInv
  rcases step_wf hr hwf with ⟨hL, hst⟩ | ⟨hb, hst⟩ | ⟨hb, hst⟩ | ⟨hb, hst⟩ | ⟨b, hun, hb, hst⟩ | ⟨hb, -, hst⟩ |
    ⟨m, hb, -, -, -, hst⟩
  all_goals rw [hst] at h; cases h
  · exact .inr (.inr (by simp [State.imageByte_none hwf hL]))
  · exact .inr (.inl (by simp [hb, hfr]))
  · exact .inl (by simp [hb, hr, hfr])
  · exact .inl (by simp [hb, hr, hfr])
  · have hne : b ≠ 0x00#8 := fun h0 => hun (h0 ▸ List.mem_cons_self)
    exact .inr (.inr (by simp [hb, hne]))
  · exact .inr (.inr (by simp [hb]))
  · exact .inl (by simp [hb, hr, hfr])

/-- Settles O32, one event at a time. -/
theorem runStateTransitions : Obligations.RunStateTransitions := by
  refine ⟨fun s => ⟨State.reset, rfl, rfl⟩, ?start, ?step, ?write⟩
  case start =>
    intro prog s t h
    obtain ⟨hr, -, rfl⟩ := start_next.mp h
    exact ⟨hr, rfl⟩
  case step =>
    intro s t hInv h
    refine ⟨step_next_running h, ?_⟩
    rcases step_rs_fr hInv h with ⟨hrs, hfr, hb⟩ | ⟨hrs, hfr, hb⟩ | ⟨hrs, hfr, hb⟩ <;> simp [hrs, hfr, hb]
  case write =>
    intro w s t h
    obtain ⟨hr, rfl⟩ := hostWrite_next.mp h
    exact ⟨hr, (s.preset_frame w).1.trans hr⟩

theorem State.Inv.fr_ne_none {s : State} (hr : s.rs = .faulted) (h : s.Inv) : s.fr ≠ none := by
  intro hfr
  have hf := h.2.2
  simp [State.faultRecordOk, hr, hfr] at hf

theorem State.Inv.fr_eq_none_iff {s : State} (h : s.Inv) : s.fr = none ↔ s.rs ≠ .faulted := by
  cases hr : s.rs with
  | halted => simp [State.Inv.halted hr h]
  | running => simp [State.Inv.running hr h]
  | faulted => simp [State.Inv.fr_ne_none hr h]

/-- Settles O33: START and a host write leave FR alone, RESET clears it, and a STEP, which finds none, changes it
only by faulting. -/
theorem faultRecordLife : Obligations.FaultRecordLife := by
  intro s hInv
  refine ⟨hInv.fr_eq_none_iff, fun e t h hne => ?_⟩
  cases e with
  | reset => cases h; exact .inr ⟨rfl, rfl⟩
  | start prog =>
    obtain ⟨-, -, rfl⟩ := start_next.mp h
    exact absurd rfl hne
  | step =>
    have hnone : s.fr = none := hInv.fr_eq_none_iff.mpr (by rw [step_next_running h]; decide)
    rcases step_rs_fr hInv h with ⟨-, hfr, -⟩ | ⟨-, hfr, -⟩ | ⟨hrs, hfr, -⟩
    · exact absurd (hfr.trans hnone.symm) hne
    · exact absurd (hfr.trans hnone.symm) hne
    · exact .inl ⟨rfl, hnone, hrs, hfr⟩
  | write w =>
    obtain ⟨-, rfl⟩ := hostWrite_next.mp h
    exact absurd (s.preset_frame w).2.1 hne

/-! ## A second START -/

theorem State.foldl_preset_rs (presets : List HostWrite) (s : State) : (presets.foldl State.preset s).rs = s.rs := by
  induction presets generalizing s with
  | nil => rfl
  | cons w ws ih => exact (ih (s.preset w)).trans (s.preset_frame w).1

/-- Settles O38: the presets keep HALTED, and from HALTED START binds and runs, which touches none of the registers. -/
theorem registersCarryOverBetweenRuns : Obligations.RegistersCarryOverBetweenRuns := by
  intro prog₁ prog₂ s t presets _ hEnd hLen
  have hHalted : (presets.foldl State.preset t).rs = .halted := (State.foldl_preset_rs presets t).trans hEnd
  exact ⟨_, start_next.mpr ⟨hHalted, hLen, rfl⟩, rfl, rfl, State.bindAndRun_bytesFrom _ prog₂ 0, rfl, rfl, rfl, rfl, rfl⟩

end Sys2Proof.Machine
end

section
/-! PROOFS. Memory (20_memory.md): what MemRead and Fetch answer on either side of L, and what START binds. -/

namespace Sys2Proof.Machine

/-- The bound is checked before the image is looked at, so this needs no canonical form (R52). -/
theorem State.memRead_of_imageLength_le {s : State} {addr : Offset} (h : s.imageLength ≤ addr.toNat) :
    s.memRead addr = .error (.outOfBounds addr) := by
  rcases s.memRead_cases addr with ⟨_, -, -, hlt⟩ | ⟨hraise, -⟩
  · exact absurd hlt (Nat.not_lt.mpr h)
  · exact hraise

theorem State.memRead_of_lt_imageLength {s : State} {addr : Offset} (hwf : s.imageWf = true)
    (h : addr.toNat < s.imageLength) : ∃ b, s.imageByte addr.toNat = some b ∧ s.memRead addr = .ok b := by
  rcases State.memRead_wf hwf addr with ⟨b, hread, hbyte, -⟩ | ⟨-, hle⟩
  · exact ⟨b, hbyte, hread⟩
  · exact absurd h (Nat.not_lt.mpr hle)

theorem State.bindAndRun_imageByte {prog : List Byte} (h : prog.length ≤ Config.maxImageLength) (s : State) (k : Nat) :
    (s.bindAndRun prog).imageByte k = prog[k]? := by
  simpa using (State.bytesFrom_getElem (State.bindAndRun_imageWf h s) 0 k).symm

/-- Fetch is a MemRead at PC, and PC does not move where that raises (40_fetch_dispatch_flags.md R93). -/
theorem State.fetch_of_imageLength_le {s : State} (h : s.imageLength ≤ s.pc.toNat) :
    s.fetch = .raised (.outOfBounds s.pc) s := by
  simp [State.fetch, State.memRead_of_imageLength_le h]

/-- Settles O11: START binds an image of the canonical form, so its reads are those of any such image. -/
theorem memReadIsBounded : Obligations.MemReadIsBounded := by
  refine ⟨fun _ _ => State.memRead_of_imageLength_le, fun _ _ => State.memRead_of_lt_imageLength,
    fun prog s t addr hstart => ?_, fun _ => State.fetch_of_imageLength_le⟩
  obtain ⟨-, hlen, rfl⟩ := start_next.mp hstart
  have hL : (s.bindAndRun prog).imageLength = prog.length := State.bindAndRun_imageLength s prog
  refine ⟨fun hle => State.memRead_of_imageLength_le (hL.trans_le hle), fun hlt => ?_⟩
  obtain ⟨b, hbyte, hread⟩ :=
    State.memRead_of_lt_imageLength (State.bindAndRun_imageWf hlen s) (hlt.trans_eq hL.symm)
  rw [State.bindAndRun_imageByte hlen, List.getElem?_eq_getElem hlt, Option.some.injEq] at hbyte
  rw [hread, hbyte]

end Sys2Proof.Machine
end

section
/-! PROOFS. Encoding (30_encoding.md): what decode answers for each opcode byte, and that it and encode are inverse. -/

namespace Sys2Proof.Machine

/-! ## The decoder, one opcode at a time -/

@[simp] theorem decode_brk (rest : List Byte) : decode (0x00#8 :: rest) = .ok (.brk, rest) := rfl

@[simp] theorem decode_lda (imm8 : Byte) (rest : List Byte) :
    decode (0xA9#8 :: imm8 :: rest) = .ok (.lda imm8, rest) := rfl

@[simp] theorem decode_lda_noOperand : decode [0xA9#8] = .error .noOperandByte := rfl

@[simp] theorem decode_tax (rest : List Byte) : decode (0xAA#8 :: rest) = .ok (.tax, rest) := rfl

@[simp] theorem decode_inx (rest : List Byte) : decode (0xE8#8 :: rest) = .ok (.inx, rest) := rfl

theorem decode_unimplemented {b : Byte} (h : b ∉ implementedOpcodes) (rest : List Byte) :
    decode (b :: rest) = .ok (.unimplemented b, rest) := by
  simp only [decode, decodeOpcode_unimplemented h]

/-! ## The round trip -/

/-- The bytes after an instruction's own are left unread (R84). -/
theorem decode_encode_append {i : Instr} (hi : i.wellFormed = true) (rest : List Byte) :
    decode (encode i ++ rest) = .ok (i, rest) := by
  cases i with
  | brk => exact decode_brk rest
  | lda imm8 => exact decode_lda imm8 rest
  | tax => exact decode_tax rest
  | inx => exact decode_inx rest
  | unimplemented b => exact decode_unimplemented (wellFormed_unimplemented.mp hi) rest

/-- Whatever decode reads is an encoding, and well-formed: the catch-all is answered for no implemented byte. -/
theorem wellFormed_and_eq_encode_append_of_decode {bs rest : List Byte} {i : Instr}
    (h : decode bs = .ok (i, rest)) :
    i.wellFormed = true ∧ bs = encode i ++ rest := by
  cases bs with
  | nil => cases h
  | cons op tail =>
    rcases decodeOpcode_cases op with ⟨rfl, -⟩ | ⟨rfl, -⟩ | ⟨rfl, -⟩ | ⟨rfl, -⟩ | ⟨hun, -⟩
    · rw [decode_brk] at h; cases h; exact ⟨rfl, rfl⟩
    · cases tail with
      | nil => rw [decode_lda_noOperand] at h; cases h
      | cons imm8 tail => rw [decode_lda] at h; cases h; exact ⟨rfl, rfl⟩
    · rw [decode_tax] at h; cases h; exact ⟨rfl, rfl⟩
    · rw [decode_inx] at h; cases h; exact ⟨rfl, rfl⟩
    · rw [decode_unimplemented hun] at h; cases h; exact ⟨wellFormed_unimplemented.mpr hun, rfl⟩

/-- Two instructions of one encoding are both what decode reads from it. -/
theorem encode_injective_of_wellFormed {i j : Instr} (hi : i.wellFormed = true) (hj : j.wellFormed = true)
    (h : encode i = encode j) : i = j := by
  have hdec : decode (encode i ++ []) = .ok (j, []) := h ▸ decode_encode_append hj []
  rw [decode_encode_append hi] at hdec
  cases hdec
  rfl

/-- Settles O5: injectivity follows from the round trip. -/
theorem decodeInvertsEncode : Obligations.DecodeInvertsEncode :=
  ⟨rfl, fun _ => rfl, rfl, rfl, fun _ rest hi => decode_encode_append hi rest,
    fun _ _ _ => wellFormed_and_eq_encode_append_of_decode,
    fun _ _ => encode_injective_of_wellFormed⟩

/-- Settles O6: each word is the opcode byte of its row, and 0xEA is in no row. -/
theorem specWordsDecode : Obligations.SpecWordsDecode :=
  ⟨decode_brk [], decode_lda 0xB2#8 [], decode_tax [], decode_inx [], decode_unimplemented (by decide) [],
    decode_lda 0xE8#8 [0x00#8]⟩

end Sys2Proof.Machine
end

section
/-! PROOFS. Fetch, dispatch and flags (40_fetch_dispatch_flags.md): the bits UpdateZN writes, where a STEP is enabled,
what START binds, and PC at a normal end. -/

namespace Sys2Proof.Machine

/-! ## PC at a normal end -/

theorem runToEnd_not_running {s : State} (hr : s.rs ≠ .running) (n : Nat) : runToEnd n s = .next s := by
  cases n with
  | zero => rfl
  | succ n => cases hs : s.rs <;> simp_all [runToEnd]

theorem runToEnd_succ {s u : State} (n : Nat) (h : step s = .next u) : runToEnd (n + 1) s = runToEnd n u := by
  simp [runToEnd, step_next_running h, h]

/-- A run answers the end of the STEPs from the state in which START bound the program. -/
theorem interpret_next {prog : List Byte} {s t : State} :
    interpret prog s = .next t ↔
      s.rs = .halted ∧ prog.length ≤ Config.maxImageLength ∧
        runToEnd (prog.length + 1) (s.bindAndRun prog) = .next t := by
  constructor
  · intro h
    unfold interpret at h
    split at h
    next u hstart =>
      obtain ⟨hr, hlen, rfl⟩ := start_next.mp hstart
      exact ⟨hr, hlen, h⟩
    all_goals cases h
  · rintro ⟨hr, hlen, h⟩
    simpa [interpret, start_next.mpr ⟨hr, hlen, rfl⟩] using h

/-- The bytes that a run which ends normally has consumed, from the instructions it executed: 2 for an LDA, 1 for a TAX
or an INX, and 1 for the BRK that is the last of them (R102). -/
def bytesConsumed (is : List Instr) : Nat := 2 * is.countP Instr.isLda + is.count .tax + is.count .inx + 1

@[simp] theorem bytesConsumed_brk : bytesConsumed [.brk] = 1 := by decide

@[simp] theorem bytesConsumed_lda (m : Byte) (is : List Instr) :
    bytesConsumed (.lda m :: is) = bytesConsumed is + 2 := by
  rw [bytesConsumed, List.countP_cons_of_pos rfl]
  simp [bytesConsumed]
  omega

@[simp] theorem bytesConsumed_tax (is : List Instr) : bytesConsumed (.tax :: is) = bytesConsumed is + 1 := by
  rw [bytesConsumed, List.countP_cons_of_neg (by decide)]
  simp [bytesConsumed]
  omega

@[simp] theorem bytesConsumed_inx (is : List Instr) : bytesConsumed (.inx :: is) = bytesConsumed is + 1 := by
  rw [bytesConsumed, List.countP_cons_of_neg (by decide)]
  simp [bytesConsumed]
  omega

theorem State.imageByte_congr {s u : State} (h : u.image = s.image) (k : Nat) : u.imageByte k = s.imageByte k := by
  simp only [State.imageByte, h]

theorem State.bytesFrom_congr {s u : State} (h : u.image = s.image) (k : Nat) : u.bytesFrom k = s.bytesFrom k := by
  simp only [State.bytesFrom, h]

theorem State.imageWf_congr {s u : State} (h : u.image = s.image) : u.imageWf = s.imageWf := by
  simp only [State.imageWf, h]

/-- From any point of a run that ends normally, PC grows by the bytes of the instructions still to execute, and the
byte before the last PC is the BRK. -/
theorem runToEnd_pc_of_normalEnd {n : Nat} {s t : State} (hr : s.rs = .running) (hwf : s.imageWf = true)
    (hrun : runToEnd n s = .next t) (hend : t.normalEnd) :
    t.pc.toNat = s.pc.toNat + bytesConsumed (executed (s.bytesFrom s.pc.toNat)) ∧
      s.imageByte (t.pc.toNat - 1) = some 0x00#8 := by
  induction n generalizing s with
  | zero =>
    cases hrun
    cases hr.symm.trans hend
  | succ n ih =>
    have pcSucc {b : Byte} (hb : s.imageByte s.pc.toNat = some b) : (s.pc + 1#16).toNat = s.pc.toNat + 1 :=
      State.pc_succ hwf (State.imageByte_lt hwf hb)
    have faults {u : State} (hst : step s = .next u) (hu : u.rs = .faulted) : False := by
      rw [runToEnd_succ n hst, runToEnd_not_running (by simp [hu])] at hrun
      cases hrun
      cases hu.symm.trans hend
    have goesOn {u : State} {k : Nat} (hst : step s = .next u) (hur : u.rs = .running) (himg : u.image = s.image)
        (hpc : u.pc.toNat = s.pc.toNat + k)
        (hbytes : bytesConsumed (executed (s.bytesFrom s.pc.toNat)) =
          bytesConsumed (executed (s.bytesFrom (s.pc.toNat + k))) + k) :
        t.pc.toNat = s.pc.toNat + bytesConsumed (executed (s.bytesFrom s.pc.toNat)) ∧
          s.imageByte (t.pc.toNat - 1) = some 0x00#8 := by
      rw [runToEnd_succ n hst] at hrun
      obtain ⟨hpcEnd, hbrk⟩ := ih hur ((State.imageWf_congr himg).trans hwf) hrun
      rw [State.bytesFrom_congr himg, hpc] at hpcEnd
      exact ⟨by omega, (State.imageByte_congr himg _).symm.trans hbrk⟩
    rcases step_wf hr hwf with ⟨-, hst⟩ | ⟨hb, hst⟩ | ⟨hb, hst⟩ | ⟨hb, hst⟩ | ⟨b, -, -, hst⟩ | ⟨-, -, hst⟩ |
      ⟨m, hb, hm, -, hpc, hst⟩
    · exact (faults hst rfl).elim
    · rw [runToEnd_succ n hst, runToEnd_not_running (by simp)] at hrun
      cases hrun
      simp [State.bytesFrom_cons hwf hb, executed_brk, pcSucc hb, hb]
    · refine goesOn hst hr rfl (pcSucc hb) ?_
      rw [State.bytesFrom_cons hwf hb, executed_tax, bytesConsumed_tax]
    · refine goesOn hst hr rfl (pcSucc hb) ?_
      rw [State.bytesFrom_cons hwf hb, executed_inx, bytesConsumed_inx]
    · exact (faults hst rfl).elim
    · exact (faults hst rfl).elim
    · refine goesOn hst hr rfl hpc ?_
      rw [State.bytesFrom_cons hwf hb, State.bytesFrom_cons hwf hm, executed_lda, bytesConsumed_lda]

/-- Settles O36: START leaves PC at 0 with the whole program ahead. -/
theorem pcAtNormalEndCountsBytes : Obligations.PcAtNormalEndCountsBytes := by
  refine ⟨fun prog s t _ hrun hend => ?_, _, rfl, rfl, rfl⟩
  obtain ⟨-, hlen, hrun⟩ := interpret_next.mp hrun
  obtain ⟨hpc, hbrk⟩ := runToEnd_pc_of_normalEnd rfl (State.bindAndRun_imageWf hlen s) hrun hend
  rw [State.bindAndRun_imageByte hlen] at hbrk
  exact ⟨by simpa [bytesConsumed] using hpc, hbrk⟩

/-! ## Where a STEP is enabled -/

theorem exists_step_next {s : State} (hInv : s.Inv) (hr : s.rs = .running) : ∃ t, step s = .next t :=
  have ⟨t, hst, _⟩ := pcAtEndOfEachStep s hInv hr
  ⟨t, hst⟩

/-- Settles O10. -/
theorem stepEnabledIffRunning : Obligations.StepEnabledIffRunning := by
  refine ⟨fun s hInv => ⟨fun ⟨t, h⟩ => step_next_running h, exists_step_next hInv⟩, fun s t hr h => ?_,
    fun prog s t h => ?_⟩
  · have hrunning := step_next_running h
    rcases hr with hr | hr <;> cases hr.symm.trans hrunning
  · obtain ⟨-, -, rfl⟩ := start_next.mp h
    rfl

/-! ## The flag updater -/

/-- Bit 1 comes from neither the reserved bits of P nor bit 7 of the value. -/
@[simp] theorem zeroFlag_updateZN (v p : Byte) : zeroFlag (updateZN v p) = decide (v = 0x00#8) := by
  by_cases hv : v = 0x00#8 <;> simp [zeroFlag, updateZN, reservedMask, hv]

@[simp] theorem negativeFlag_updateZN (v p : Byte) : negativeFlag (updateZN v p) = v.getLsbD 7 := by
  by_cases hv : v = 0x00#8 <;> simp [negativeFlag, updateZN, reservedMask, hv]

/-- A bit that the mask of the reserved bits selects is read off them, and the update keeps those. -/
theorem getLsbD_updateZN_reserved {i : Nat} (hi : reservedMask.getLsbD i = true) (v p : Byte) :
    (updateZN v p).getLsbD i = p.getLsbD i := by
  have h := congrArg (·.getLsbD i) (reservedBits_updateZN v p)
  simpa [reservedBits, hi] using h

/-- Settles O13: the bits 0, 2, 3, 4, 5, 6 are those of the mask. -/
theorem updateZNRule : Obligations.UpdateZNRule := by
  have hmask : ∀ i ∈ [0, 2, 3, 4, 5, 6], reservedMask.getLsbD i = true := by decide
  exact fun v p => ⟨zeroFlag_updateZN v p, negativeFlag_updateZN v p,
    fun i hi => getLsbD_updateZN_reserved (hmask i hi) v p, rfl⟩

/-! ## START -/

theorem step_of_imageLength_le {s : State} (hr : s.rs = .running) (h : s.imageLength ≤ s.pc.toNat) :
    step s = .next (s.takeFault (.outOfBounds s.pc)).releaseImage := by
  rw [step_running hr, State.fetchInstr, State.fetch_of_imageLength_le h]
  rfl

/-- Settles O30: an empty image has its end at the PC of 0 that START sets. -/
theorem startBindsAndRuns : Obligations.StartBindsAndRuns := by
  refine ⟨fun prog s hr hlen => ?_, fun prog s t hbad h => ?_⟩
  · refine ⟨s.bindAndRun prog, start_next.mpr ⟨hr, hlen, rfl⟩, rfl, rfl, rfl, State.bindAndRun_imageLength s prog,
      State.bindAndRun_imageByte hlen s, State.bindAndRun_bytesFrom s prog 0, fun hnil => ?_⟩
    subst hnil
    exact step_of_imageLength_le rfl (Nat.le_refl 0)
  · obtain ⟨hr, hlen, -⟩ := start_next.mp h
    rcases hbad with hbad | hbad
    · exact hbad hr
    · exact Nat.not_le.mpr hbad hlen

end Sys2Proof.Machine
end

section
/-! PROOFS. BRK (41_brk_halt.md): the STEP that halts, the only handler that halts, and the START after it. -/

namespace Sys2Proof.Machine

/-- The STEP that finds 0x00 at PC reads no byte after it: PC goes one on, and the end of the run takes the image. -/
theorem step_brk {s : State} (hwf : s.imageWf = true) (h : s.atOpcode 0x00#8) :
    step s = .next ((s.setPc (s.pc + 1#16)).setRs .halted).releaseImage := by
  obtain ⟨hr, hb⟩ := h
  obtain ⟨hfetch, -, -⟩ := State.fetch_of_byte hwf hb
  rw [step_running hr, State.fetchInstr, hfetch]
  rfl

/-- LDA, TAX and INX leave RS alone, and an unimplemented opcode leads to FAULTED. -/
theorem eq_brk_of_exec_halts {i : Instr} {s t : State} (h : exec i s = .next t) (hs : s.rs = .running)
    (ht : t.rs = .halted) : i = .brk := by
  cases i with
  | brk => rfl
  | lda m => rw [exec_lda] at h; cases h; cases hs.symm.trans ht
  | tax => rw [exec_tax] at h; cases h; cases hs.symm.trans ht
  | inx => rw [exec_inx] at h; cases h; cases hs.symm.trans ht
  | unimplemented b => rw [exec_unimplemented] at h; cases h; cases ht

/-- Settles O15: BRK leaves HALTED, in which START is enabled. -/
theorem brkHaltsAndNothingElse : Obligations.BrkHaltsAndNothingElse := by
  refine ⟨rfl, exec_brk, fun s hInv hop => ?_, fun _ _ _ => eq_brk_of_exec_halts, decode_lda 0x00#8,
    fun s t prog h hlen => ?_⟩
  · obtain ⟨hwf, -, -⟩ := hInv
    obtain ⟨-, -, hpc⟩ := State.fetch_of_byte hwf hop.2
    exact ⟨step_brk hwf hop, hpc⟩
  · rw [exec_brk] at h
    cases h
    exact ⟨_, start_next.mpr ⟨rfl, hlen, rfl⟩⟩

end Sys2Proof.Machine
end

section
/-! PROOFS. LDA (42_lda_load_immediate.md): the STEP that loads its operand, and the one byte that decodes to an LDA. -/

namespace Sys2Proof.Machine

/-- The STEP that finds 0xA9 and an operand at PC fetches both bytes before the handler acts, and the run goes on. -/
theorem step_lda {s : State} {v : Byte} (hwf : s.imageWf = true) (h : s.atOpcode 0xA9#8)
    (hv : s.imageByte (s.pc.toNat + 1) = some v) :
    step s = .next (((s.setPc (s.pc + 1#16 + 1#16)).setA v).flagsFrom v) ∧
      (s.pc + 1#16 + 1#16).toNat = s.pc.toNat + 2 := by
  obtain ⟨hr, hb⟩ := h
  obtain ⟨hop, -, hpc⟩ := State.fetch_of_byte hwf hb
  have hv' : (s.setPc (s.pc + 1#16)).imageByte (s.pc + 1#16).toNat = some v := by rw [hpc]; exact hv
  obtain ⟨himm, -, hpc'⟩ := State.fetch_of_byte (s := s.setPc (s.pc + 1#16)) hwf hv'
  have hfetch : s.fetchInstr = .got (.lda v) (s.setPc (s.pc + 1#16 + 1#16)) := by
    simp only [State.fetchInstr, hop, Fetched.andThen, decodeOpcode_lda, State.fetchOperand, State.fetchImmediate, himm]
    rfl
  constructor
  · rw [step_running hr, hfetch]
    simp [dispatchFetched, releaseEnded_next, hr]
  · simpa [hpc] using hpc'

/-- Bit 7 of a byte as the spec also writes it, by the mask 0x80 (R116). -/
theorem getLsbD_seven_iff_and_ne_zero (v : Byte) : v.getLsbD 7 = true ↔ v &&& 0x80#8 ≠ 0x00#8 := by
  have hand : v &&& 0x80#8 = if v.getLsbD 7 then 0x80#8 else 0x00#8 := BitVec.and_twoPow v 7
  rw [hand]
  cases v.getLsbD 7 <;> decide

/-- Whatever decodes to an LDA is an LDA's encoding, which begins with 0xA9. -/
theorem eq_lda_of_decode {op v : Byte} {rest rest' : List Byte}
    (h : decode (op :: rest) = .ok (.lda v, rest')) : op = 0xA9#8 := by
  obtain ⟨-, henc⟩ := wellFormed_and_eq_encode_append_of_decode h
  exact (List.cons.inj henc).1

/-- Settles O17: the STEP is a composition of named updates, and of these only the flag update writes P. -/
theorem ldaLaw : Obligations.LdaLaw := by
  refine ⟨fun s v hInv hop hv => ?_, fun _ _ _ _ => eq_lda_of_decode,
    fun rest => ⟨decode_unimplemented (by decide) rest, decode_unimplemented (by decide) rest⟩⟩
  obtain ⟨hwf, -, -⟩ := hInv
  obtain ⟨hst, hpc⟩ := step_lda hwf hop hv
  have hneg : negativeFlag (updateZN v s.p) = true ↔ v &&& 0x80#8 ≠ 0x00#8 := by
    rw [negativeFlag_updateZN]
    exact getLsbD_seven_iff_and_ne_zero v
  exact ⟨_, hst, rfl, zeroFlag_updateZN v s.p, negativeFlag_updateZN v s.p, hneg, reservedBits_updateZN v s.p,
    rfl, rfl, rfl, hpc, hop.1, rfl⟩

end Sys2Proof.Machine
end

section
/-! PROOFS. TAX (43_tax_transfer.md): the handler, and the STEP that runs it. -/

namespace Sys2Proof.Machine

/-- The STEP that finds 0xAA at PC fetches that byte alone, and the run goes on: the handler leaves RS at RUNNING. -/
theorem step_tax {s : State} (hwf : s.imageWf = true) (h : s.atOpcode 0xAA#8) :
    step s = .next (((s.setPc (s.pc + 1#16)).setX s.a).flagsFrom s.a) := by
  obtain ⟨hr, hb⟩ := h
  obtain ⟨hop, -, -⟩ := State.fetch_of_byte hwf hb
  have hfetch : s.fetchInstr = .got .tax (s.setPc (s.pc + 1#16)) := by
    rw [State.fetchInstr, hop]
    rfl
  rw [step_running hr, hfetch]
  simp [dispatchFetched, releaseEnded_next, hr]

/-- Settles O18: X equals A by the time the flags are taken, so either source gives the same P; the STEP is that handler
with PC moved past the opcode. -/
theorem taxHandlerCopiesAccumulator : Obligations.TaxHandlerCopiesAccumulator := by
  refine ⟨rfl, fun s => ?handler, fun s hInv hop => ?step, ?workedRun⟩
  case handler =>
    exact ⟨_, exec_tax s, rfl, rfl, zeroFlag_updateZN s.a s.p, negativeFlag_updateZN s.a s.p,
      reservedBits_updateZN s.a s.p⟩
  case step =>
    obtain ⟨hwf, -, -⟩ := hInv
    exact step_tax hwf hop
  case workedRun => exact ⟨_, rfl, rfl, rfl, rfl, rfl⟩

end Sys2Proof.Machine
end

section
/-! PROOFS. INX (44_inx_increment.md): the handler, and the STEP that runs it. -/

namespace Sys2Proof.Machine

/-- Where the opcode byte at PC asks for no operand, the STEP is the handler of its instruction with PC one on. -/
theorem step_of_implied {s : State} {b : Byte} {i : Instr} (hwf : s.imageWf = true) (h : s.atOpcode b)
    (himplied : ∀ u : State, u.fetchOperand (decodeOpcode b) = u.implied i) :
    step s = releaseEnded (exec i (s.setPc (s.pc + 1#16))) := by
  obtain ⟨hr, hb⟩ := h
  obtain ⟨hop, -, -⟩ := State.fetch_of_byte hwf hb
  have hfetch : s.fetchInstr = .got i (s.setPc (s.pc + 1#16)) := by
    rw [State.fetchInstr, hop]
    exact himplied _
  rw [step_running hr, hfetch]
  rfl

/-- The run goes on after an INX, whatever X was: the handler leaves RS at RUNNING, also at the wrap. -/
theorem step_inx {s : State} (hwf : s.imageWf = true) (h : s.atOpcode 0xE8#8) :
    step s = .next (((s.setPc (s.pc + 1#16)).setX (s.x + 1#8)).flagsFrom (s.x + 1#8)) := by
  rw [step_of_implied hwf h fun _ => rfl, exec_inx, releaseEnded_next]
  simp [h.1]

/-- Settles O20: X is a byte, so its sum with 1 is already reduced modulo 256, and the flags are taken from that sum. -/
theorem inxHandlerIncrements : Obligations.InxHandlerIncrements := by
  refine ⟨rfl, fun s => ?handler, fun s hInv hop => ?step, ?workedRun⟩
  case handler =>
    exact ⟨_, exec_inx s, rfl, BitVec.toNat_add s.x 1#8, zeroFlag_updateZN (s.x + 1#8) s.p,
      negativeFlag_updateZN (s.x + 1#8) s.p, reservedBits_updateZN (s.x + 1#8) s.p⟩
  case step =>
    obtain ⟨hwf, -, -⟩ := hInv
    exact step_inx hwf hop
  case workedRun => exact ⟨_, rfl, rfl, rfl⟩

end Sys2Proof.Machine
end

section
/-! PROOFS. Unimplemented opcodes (45_unimplemented_opcodes.md): the catch-all's fault entry, and the STEP that reaches
it. -/

namespace Sys2Proof.Machine

/-- Entered with PC one past the opcode byte, the catch-all records the byte's own offset (R94). -/
theorem exec_unimplemented_of_pc {s : State} {o : Offset} (b : Byte) (hpc : s.pc.toNat = o.toNat + 1) :
    exec (.unimplemented b) s = .next (s.takeFault (.unimplementedOpcode b o)) := by
  have hoff : s.pc - 1#16 = o := by bv_omega
  rw [exec_unimplemented, hoff]

/-- The STEP that finds one of the 252 other bytes at PC fetches that byte alone, and the fault ends the run. -/
theorem step_unimplemented {s : State} {b : Byte} (hb : b ∉ implementedOpcodes) (hwf : s.imageWf = true)
    (h : s.atOpcode b) :
    step s = .next ((s.setPc (s.pc + 1#16)).takeFault (.unimplementedOpcode b s.pc)).releaseImage := by
  obtain ⟨-, -, hpc⟩ := State.fetch_of_byte hwf h.2
  have himplied (u : State) : u.fetchOperand (decodeOpcode b) = u.implied (.unimplemented b) := by
    rw [decodeOpcode_unimplemented hb]
    rfl
  rw [step_of_implied hwf h himplied, exec_unimplemented_of_pc b hpc]
  rfl

/-- Settles O22: fault entry writes RS and FR only, and the offset it records is the PC before the fetch. -/
theorem unimplementedOpcodeFaults : Obligations.UnimplementedOpcodeFaults := by
  refine fun b hb => ⟨fun s o hpc => ?handler, fun s hInv hop => ?step, fun rest => ?operand⟩
  case handler => exact exec_unimplemented_of_pc b hpc
  case step =>
    obtain ⟨hwf, -, -⟩ := hInv
    exact step_unimplemented hb hwf hop
  case operand => exact decode_lda b rest

end Sys2Proof.Machine
end

section
/-! PROOFS. Exceptions (60_exceptions.md): fault entry and the end of the run it makes, the invariant that every STEP
keeps, and the one event left after a fault. -/

namespace Sys2Proof.Machine

/-! ## The invariant -/

/-- A state of the same run, with its image and its FR, meets the invariant as long as PC has not passed L. -/
theorem State.Inv.of_same_run {s t : State} (hInv : s.Inv) (hs : s.rs = .running) (ht : t.rs = .running)
    (himg : t.image = s.image) (hfr : t.fr = s.fr) (hpc : t.pc.toNat ≤ s.imageLength) : t.Inv := by
  obtain ⟨hwf, hbound, -, hnone⟩ := State.Inv.running hs hInv
  have hL : t.imageLength = s.imageLength := by simp only [State.imageLength, himg]
  refine ⟨(State.imageWf_congr himg).trans hwf, ?_, ?_⟩
  · simp [State.pcInImage, ht, himg, hbound, hL, hpc]
  · simp [State.faultRecordOk, ht, hfr, hnone]

/-- The end of a normal run: no image is left to be well formed, and FR was never written. -/
theorem State.inv_halted_releaseImage {s : State} (hfr : s.fr = none) : (s.setRs .halted).releaseImage.Inv :=
  ⟨rfl, rfl, by simp [State.faultRecordOk, hfr]⟩

/-- F1 of Table R140 records PC itself. -/
theorem State.inv_outOfBounds_releaseImage (s : State) : (s.takeFault (.outOfBounds s.pc)).releaseImage.Inv :=
  ⟨rfl, rfl, by simp [State.faultRecordOk]⟩

/-- F2 of Table R140 records a byte without a handler, and the offset before PC. -/
theorem State.inv_unimplementedOpcode_releaseImage {s : State} {b : Byte} {o : Offset} (hb : b ∉ implementedOpcodes)
    (hpc : s.pc.toNat = o.toNat + 1) : (s.takeFault (.unimplementedOpcode b o)).releaseImage.Inv :=
  ⟨rfl, rfl, by simp [State.faultRecordOk, hb, hpc]⟩

/-- Settles O3, row by row of Table R26: the run goes on with PC past bytes that the image holds, or it ends and the
image is released. -/
theorem everyStepKeepsInv : Obligations.EveryStepKeepsInv := by
  intro s t hInv h
  have hr := step_next_running h
  obtain ⟨hwf, -, -, hfr⟩ := State.Inv.running hr hInv
  have pcSucc {b : Byte} (hb : s.imageByte s.pc.toNat = some b) :
      s.pc.toNat < s.imageLength ∧ (s.pc + 1#16).toNat = s.pc.toNat + 1 := (State.fetch_of_byte hwf hb).2
  have pcSucc_le {b : Byte} (hb : s.imageByte s.pc.toNat = some b) : (s.pc + 1#16).toNat ≤ s.imageLength := by
    obtain ⟨hlt, hpc⟩ := pcSucc hb
    omega
  rcases step_wf hr hwf with ⟨-, hst⟩ | ⟨-, hst⟩ | ⟨hb, hst⟩ | ⟨hb, hst⟩ | ⟨b, hun, hb, hst⟩ | ⟨-, -, hst⟩ |
    ⟨m, -, -, hL, hpc, hst⟩
  all_goals rw [hst] at h; cases h
  · exact State.inv_outOfBounds_releaseImage s
  · exact State.inv_halted_releaseImage hfr
  · exact hInv.of_same_run hr hr rfl rfl (pcSucc_le hb)
  · exact hInv.of_same_run hr hr rfl rfl (pcSucc_le hb)
  · exact State.inv_unimplementedOpcode_releaseImage hun (pcSucc hb).2
  · exact State.inv_outOfBounds_releaseImage (s.setPc (s.pc + 1#16))
  · exact hInv.of_same_run hr hr rfl rfl (hpc.trans_le hL)

/-! ## Fault entry -/

/-- A fault entered at any point of a STEP ends the run, and the end of the run takes the image and nothing more. -/
theorem releaseEnded_takeFault (u : State) (f : FaultRecord) :
    releaseEnded (.next (u.takeFault f)) = .next (u.takeFault f).releaseImage := by
  rw [releaseEnded_next, if_neg (by simp)]

/-- Settles O25: the fetch half hands the state of the raise to fault entry, and so does the dispatcher, which records
the offset before PC. -/
theorem faultEntry : Obligations.FaultEntry := by
  refine ⟨fun s u f hr hraise => ?fetch, fun s u b hr hgot => ?dispatch, fun s f => rfl⟩
  case fetch =>
    rw [step_running hr, hraise]
    exact releaseEnded_takeFault u f
  case dispatch =>
    rw [step_running hr, hgot]
    exact releaseEnded_takeFault u (.unimplementedOpcode b (u.pc - 1#16))

/-! ## After a fault -/

/-- Settles O29, one event at a time: RESET asks nothing of the state, a STEP needs RUNNING, START and a host write
need HALTED. -/
theorem onlyResetAfterFault : Obligations.OnlyResetAfterFault := by
  intro s hr e t
  constructor
  · intro h
    cases e with
    | reset => cases h; exact ⟨rfl, rfl⟩
    | start prog =>
      obtain ⟨hHalted, -, -⟩ := start_next.mp h
      cases hr.symm.trans hHalted
    | step => cases hr.symm.trans (step_next_running h)
    | write w =>
      obtain ⟨hHalted, -⟩ := hostWrite_next.mp h
      cases hr.symm.trans hHalted
  · rintro ⟨rfl, rfl⟩
    rfl

end Sys2Proof.Machine
end

section
/-! PROOFS. The opcode map (30_encoding.md section 3): the byte that each of its answers stands for. -/

namespace Sys2Proof

/-- The opcode byte that selects a handler (Table R75). -/
def Opcode.byte : Opcode → Byte
  | .brk => 0x00#8
  | .ldaImm => 0xA9#8
  | .tax => 0xAA#8
  | .inx => 0xE8#8
  | .unimplemented b => b

@[simp] theorem byte_decodeOpcode (b : Byte) : (decodeOpcode b).byte = b := by
  rcases decodeOpcode_cases b with ⟨hb, hd⟩ | ⟨hb, hd⟩ | ⟨hb, hd⟩ | ⟨hb, hd⟩ | ⟨-, hd⟩
  · rw [hd, hb]; rfl
  · rw [hd, hb]; rfl
  · rw [hd, hb]; rfl
  · rw [hd, hb]; rfl
  · rw [hd]; rfl

theorem eq_byte_of_decodeOpcode {b : Byte} {op : Opcode} (h : decodeOpcode b = op) : b = op.byte := by
  rw [← h, byte_decodeOpcode]

theorem decodeOpcode_eq_unimplemented {b c : Byte} :
    decodeOpcode b = .unimplemented c ↔ c = b ∧ b ∉ implementedOpcodes := by
  constructor
  · intro h
    refine ⟨(eq_byte_of_decodeOpcode h).symm, fun hmem => ?_⟩
    simp only [implementedOpcodes, List.mem_cons, List.not_mem_nil, or_false] at hmem
    rcases hmem with rfl | rfl | rfl | rfl <;> cases h
  · rintro ⟨rfl, hb⟩
    exact decodeOpcode_unimplemented hb

/-- The bytes without a handler are three ranges (R77). -/
theorem not_mem_implementedOpcodes_iff (b : Byte) : b ∉ implementedOpcodes ↔
    0x01 ≤ b.toNat ∧ b.toNat ≤ 0xA8 ∨ 0xAB ≤ b.toNat ∧ b.toNat ≤ 0xE7 ∨ 0xE9 ≤ b.toNat ∧ b.toNat ≤ 0xFF := by
  simp only [implementedOpcodes, List.mem_cons, List.not_mem_nil, or_false, ← BitVec.toNat_inj, BitVec.toNat_ofNat]
  omega

/-- Settles O7: a byte is that of its answer, and the other way round the map is evaluated. -/
theorem opcodeMapIsClosed : Obligations.OpcodeMapIsClosed := by
  refine fun b => ⟨⟨eq_byte_of_decodeOpcode, ?brk⟩, ⟨eq_byte_of_decodeOpcode, ?lda⟩, ⟨eq_byte_of_decodeOpcode, ?tax⟩,
    ⟨eq_byte_of_decodeOpcode, ?inx⟩, fun c => ?unimplemented⟩
  case unimplemented => rw [decodeOpcode_eq_unimplemented, not_mem_implementedOpcodes_iff]
  all_goals
    rintro rfl
    rfl

end Sys2Proof
end

section
/-! PROOFS. The STEP by the bytes at PC (40_fetch_dispatch_flags.md, 60_exceptions.md): what it does where they decode and
where they run out, the laws of LDA and TAX, and which fault a STEP reports. -/

namespace Sys2Proof.Machine

/-! ## Fetch -/

theorem State.imageByte_eq_none_iff {s : State} (h : s.imageWf = true) {k : Nat} :
    s.imageByte k = none ↔ s.imageLength ≤ k := by
  rw [← Option.not_isSome_iff_eq_none, State.imageByte_isSome h, Nat.not_lt]

/-- Settles O12: in a run PC is at most L, so where there is no byte at PC it is L. -/
theorem fetchReadsThenAdvances : Obligations.FetchReadsThenAdvances := by
  intro s hInv hr
  obtain ⟨hwf, -, hle, -⟩ := State.Inv.running hr hInv
  refine ⟨fun b hb => ?_, fun hnone => ?_⟩
  · obtain ⟨hfetch, -, hpc⟩ := State.fetch_of_byte hwf hb
    exact ⟨hfetch, hpc⟩
  · have hL : s.imageLength ≤ s.pc.toNat := (State.imageByte_eq_none_iff hwf).mp hnone
    exact ⟨State.fetch_of_imageLength_le hL, Nat.le_antisymm hle hL⟩

/-- The STEP that finds 0xA9 in the last place: the operand fetch raises at PC, which the opcode fetch has moved to L. -/
theorem step_lda_noOperand {s : State} (hwf : s.imageWf = true) (h : s.atOpcode 0xA9#8)
    (hL : s.imageLength ≤ s.pc.toNat + 1) :
    step s = .next ((s.setPc (s.pc + 1#16)).takeFault (.outOfBounds (s.pc + 1#16))).releaseImage ∧
      (s.pc + 1#16).toNat = s.imageLength := by
  obtain ⟨hr, hb⟩ := h
  obtain ⟨hop, hlt, hpc⟩ := State.fetch_of_byte hwf hb
  have himm : (s.setPc (s.pc + 1#16)).fetch = .raised (.outOfBounds (s.pc + 1#16)) (s.setPc (s.pc + 1#16)) :=
    State.fetch_of_imageLength_le (by simpa [hpc] using hL)
  have hfetch : s.fetchInstr = .raised (.outOfBounds (s.pc + 1#16)) (s.setPc (s.pc + 1#16)) := by
    simp only [State.fetchInstr, hop, Fetched.andThen, decodeOpcode_lda, State.fetchOperand, State.fetchImmediate, himm]
  refine ⟨?_, by omega⟩
  rw [step_running hr, hfetch]
  exact releaseEnded_takeFault _ _

/-! ## The STEP and the decoder -/

/-- The decoder stops only at the end of the bytes: before an opcode, or after a 0xA9. -/
theorem decode_eq_error {bs : List Byte} {e : DecodeError} (h : decode bs = .error e) :
    (e = .noOpcodeByte ∧ bs = []) ∨ (e = .noOperandByte ∧ bs = [0xA9#8]) := by
  cases bs with
  | nil => cases h; exact .inl ⟨rfl, rfl⟩
  | cons op tail =>
    rcases decodeOpcode_cases op with ⟨rfl, -⟩ | ⟨rfl, -⟩ | ⟨rfl, -⟩ | ⟨rfl, -⟩ | ⟨hun, -⟩
    · rw [decode_brk] at h; cases h
    · cases tail with
      | nil => rw [decode_lda_noOperand] at h; cases h; exact .inr ⟨rfl, rfl⟩
      | cons imm8 tail => rw [decode_lda] at h; cases h
    · rw [decode_tax] at h; cases h
    · rw [decode_inx] at h; cases h
    · rw [decode_unimplemented hun] at h; cases h

/-- Settles O9: no byte at PC is the end of the image there, a 0xA9 alone is its end one further on. -/
theorem stepFaultsWhenBytesRunOut : Obligations.StepFaultsWhenBytesRunOut := by
  intro s hInv hr
  obtain ⟨hwf, -, -⟩ := hInv
  refine ⟨fun h => ?opcode, fun h => ?operand⟩
  case opcode =>
    obtain ⟨-, hbytes⟩ | ⟨he, -⟩ := decode_eq_error h
    · have hnone := State.bytesFrom_getElem hwf s.pc.toNat 0
      rw [hbytes] at hnone
      exact step_of_imageLength_le hr ((State.imageByte_eq_none_iff hwf).mp hnone.symm)
    · cases he
  case operand =>
    obtain ⟨he, -⟩ | ⟨-, hbytes⟩ := decode_eq_error h
    · cases he
    · have hop := State.bytesFrom_getElem hwf s.pc.toNat 0
      have hnone := State.bytesFrom_getElem hwf s.pc.toNat 1
      rw [hbytes] at hop hnone
      exact (step_lda_noOperand hwf ⟨hr, hop.symm⟩ ((State.imageByte_eq_none_iff hwf).mp hnone.symm)).1

/-- PC moved past the two bytes of an LDA, in one go. -/
theorem pc_add_two (v : Offset) : v + 1#16 + 1#16 = v + 2#16 := BitVec.add_assoc v 1#16 1#16

/-- The STEP where the bytes at PC decode: the byte of an instruction without operand alone, or both bytes of an LDA, are
fetched before the handler runs. -/
theorem step_of_decode {s : State} {i : Instr} {rest : List Byte} (hwf : s.imageWf = true) (hr : s.rs = .running)
    (h : decode (s.bytesFrom s.pc.toNat) = .ok (i, rest)) :
    step s = releaseEnded (exec i (s.setPc (s.pc + BitVec.ofNat 16 i.size))) := by
  obtain ⟨hi, hbytes⟩ := wellFormed_and_eq_encode_append_of_decode h
  have hop := State.bytesFrom_getElem hwf s.pc.toNat 0
  have himm := State.bytesFrom_getElem hwf s.pc.toNat 1
  rw [hbytes] at hop himm
  cases i with
  | brk => exact step_of_implied hwf ⟨hr, hop.symm⟩ fun _ => rfl
  | lda m =>
    obtain ⟨hst, -⟩ := step_lda hwf ⟨hr, hop.symm⟩ himm.symm
    rw [hst, exec_lda, releaseEnded_next, pc_add_two]
    simp [Instr.size, hr]
  | tax => exact step_of_implied hwf ⟨hr, hop.symm⟩ fun _ => rfl
  | inx => exact step_of_implied hwf ⟨hr, hop.symm⟩ fun _ => rfl
  | unimplemented b =>
    refine step_of_implied hwf ⟨hr, hop.symm⟩ fun _ => ?_
    rw [decodeOpcode_unimplemented (wellFormed_unimplemented.mp hi)]
    rfl

/-- Settles O8. -/
theorem stepRunsDecodedInstruction : Obligations.StepRunsDecodedInstruction := by
  refine ⟨fun s i rest hInv hr h => ?_, releaseEnded_next, fun _ => rfl, fun _ => rfl⟩
  obtain ⟨hwf, -, -⟩ := hInv
  exact step_of_decode hwf hr h

/-! ## The flag updater and the laws of LDA and TAX -/

theorem getLsbD_seven_eq_decide (v : Byte) : v.getLsbD 7 = decide (128 ≤ v.toNat) :=
  (BitVec.msb_eq_getLsbD_last v).symm.trans (BitVec.msb_eq_decide v)

/-- Of the old P the update uses the reserved bits only. -/
theorem updateZN_congr {p q : Byte} (v : Byte) (h : reservedBits p = reservedBits q) : updateZN v p = updateZN v q := by
  simp only [reservedBits] at h
  simp only [updateZN, h]

@[simp] theorem updateZN_updateZN (v w p : Byte) : updateZN v (updateZN w p) = updateZN v p :=
  updateZN_congr v (reservedBits_updateZN w p)

/-- Settles O14: N is "at least 128" and Z is "equal to 0", which exclude each other. -/
theorem updateZNPatterns : Obligations.UpdateZNPatterns := by
  refine ⟨fun v p => ?_, fun _ _ => rfl⟩
  rw [negativeFlag_updateZN, zeroFlag_updateZN, getLsbD_seven_eq_decide]
  simp only [← BitVec.toNat_inj, BitVec.toNat_ofNat, decide_eq_true_eq, decide_eq_false_iff_not]
  exact ⟨by omega, by omega, by omega, by omega, congrArg BitVec.toNat (updateZN_updateZN v v p)⟩

/-- Settles O16: the handler and the STEP write A and P alone beside PC, and with no operand byte the handler is not
reached. -/
theorem ldaHandlerLoadsImmediate : Obligations.LdaHandlerLoadsImmediate := by
  refine ⟨fun m => rfl, fun m s => ?handler, fun s m hInv hop hm => ?step, fun s hInv hop hL => ?noOperand,
    ⟨_, rfl, rfl, rfl, rfl⟩, ⟨_, rfl, rfl, rfl⟩, ⟨_, rfl, rfl⟩⟩
  case handler =>
    exact ⟨_, exec_lda m s, rfl, zeroFlag_updateZN m s.p, negativeFlag_updateZN m s.p, reservedBits_updateZN m s.p⟩
  case step =>
    obtain ⟨hwf, -, -⟩ := hInv
    obtain ⟨hst, -⟩ := step_lda hwf hop hm
    rw [hst, pc_add_two]
    rfl
  case noOperand =>
    obtain ⟨hwf, -, -⟩ := hInv
    exact step_lda_noOperand hwf hop hL

/-- Settles O19: after one TAX, X and the flags are already what a second TAX makes them. -/
theorem taxLaw : Obligations.TaxLaw := by
  intro s hInv hop
  obtain ⟨hwf, -, -⟩ := hInv
  obtain ⟨-, -, hpc⟩ := State.fetch_of_byte hwf hop.2
  refine ⟨_, step_tax hwf hop, rfl, rfl, zeroFlag_updateZN s.a s.p, negativeFlag_updateZN s.a s.p,
    reservedBits_updateZN s.a s.p, rfl, rfl, hpc, hop.1, rfl, fun hb => ?_⟩
  have hop' : (((s.setPc (s.pc + 1#16)).setX s.a).flagsFrom s.a).atOpcode 0xAA#8 := ⟨hop.1, by simpa [hpc] using hb⟩
  rw [step_tax (by simpa using hwf) hop']
  simp [State.flagsFrom, State.setX, State.setPc]

/-! ## Which fault a STEP reports -/

/-- Settles O26: of the seven rows of Table R26 three fault, and in these the handlers that write have not been
reached. -/
theorem faultsArePrecise : Obligations.FaultsArePrecise := by
  intro s t hInv h hf
  have hr := step_next_running h
  obtain ⟨hwf, -, -⟩ := hInv
  rcases step_wf hr hwf with ⟨hL, hst⟩ | ⟨hb, hst⟩ | ⟨hb, hst⟩ | ⟨hb, hst⟩ | ⟨b, hun, hb, hst⟩ | ⟨hb, hL, hst⟩ |
    ⟨m, hb, -, -, -, hst⟩
  all_goals rw [hst] at h; cases h
  · exact ⟨rfl, rfl, rfl, rfl, rfl, .inl ⟨State.imageByte_none hwf hL, rfl, rfl⟩⟩
  · cases hf
  · cases hr.symm.trans hf
  · cases hr.symm.trans hf
  · obtain ⟨-, -, hpc⟩ := State.fetch_of_byte hwf hb
    exact ⟨rfl, rfl, rfl, rfl, rfl, .inr (.inl ⟨b, hb, hun, hpc, rfl⟩)⟩
  · obtain ⟨-, -, hpc⟩ := State.fetch_of_byte hwf hb
    exact ⟨rfl, rfl, rfl, rfl, rfl, .inr (.inr ⟨hb, State.imageByte_none hwf hL.le, hpc, rfl⟩)⟩
  · cases hr.symm.trans hf

/-- Settles O27: one STEP for each outcome of the checks. -/
theorem faultCheckOrder : Obligations.FaultCheckOrder := by
  intro s hInv hr
  obtain ⟨hwf, -, -, hfr⟩ := State.Inv.running hr hInv
  refine ⟨fun hL => ⟨_, step_of_imageLength_le hr hL, rfl⟩,
    fun b hb hun => ⟨_, step_unimplemented hun hwf ⟨hr, hb⟩, rfl⟩,
    fun hb hL => ⟨_, (step_lda_noOperand hwf ⟨hr, hb⟩ hL).1, rfl⟩, fun b hb hno => ?noFault⟩
  rcases hno with rfl | rfl | rfl | ⟨rfl, hlt⟩
  · exact ⟨_, step_brk hwf ⟨hr, hb⟩, hfr⟩
  · exact ⟨_, step_tax hwf ⟨hr, hb⟩, hfr⟩
  · exact ⟨_, step_inx hwf ⟨hr, hb⟩, hfr⟩
  · obtain ⟨m, hm⟩ := Option.isSome_iff_exists.mp ((State.imageByte_isSome hwf _).mpr hlt)
    exact ⟨_, (step_lda hwf ⟨hr, hb⟩ hm).1, hfr⟩

/-- A STEP that records OutOfBounds is one of the precise faults, and PC has stopped at L. -/
theorem outOfBounds_of_step {s t : State} {o : Offset} (hInv : s.Inv) (h : step s = .next t)
    (hfr : t.fr = some (.outOfBounds o)) :
    t.pc = o ∧ o.toNat = s.imageLength ∧
      (s.pc.toNat = s.imageLength ∨ s.pc.toNat + 1 = s.imageLength ∧ s.imageByte s.pc.toNat = some 0xA9#8) := by
  obtain ⟨hwf, -, hle, -⟩ := State.Inv.running (step_next_running h) hInv
  have hf : t.rs = .faulted := by
    rcases step_rs_fr hInv h with ⟨-, hnone, -⟩ | ⟨-, hnone, -⟩ | ⟨hf, -, -⟩
    · cases hfr.symm.trans hnone
    · cases hfr.symm.trans hnone
    · exact hf
  obtain ⟨-, -, -, -, -, hcase⟩ := faultsArePrecise s t hInv h hf
  rcases hcase with ⟨hnone, hpc, hfr'⟩ | ⟨b, -, -, -, hfr'⟩ | ⟨hb, hnone, hpc, hfr'⟩
  · cases hfr.symm.trans hfr'
    have hL := (State.imageByte_eq_none_iff hwf).mp hnone
    exact ⟨hpc, by omega, .inl (by omega)⟩
  · cases hfr.symm.trans hfr'
  · cases hfr.symm.trans hfr'
    have hL := (State.imageByte_eq_none_iff hwf).mp hnone
    have hlt := State.imageByte_lt hwf hb
    exact ⟨rfl, by omega, .inr ⟨by omega, hb⟩⟩

/-- Settles O28. -/
theorem outOfBoundsSituations : Obligations.OutOfBoundsSituations := by
  intro s o hInv hr
  have ⟨hwf, _, _⟩ := hInv
  refine ⟨⟨fun ⟨t, h, hfr⟩ => (outOfBounds_of_step hInv h hfr).2, fun ⟨ho, hsit⟩ => ?situations⟩,
    fun t h hfr => (outOfBounds_of_step hInv h hfr).1⟩
  rcases hsit with hL | ⟨hL, hb⟩
  · obtain rfl : s.pc = o := BitVec.eq_of_toNat_eq (hL.trans ho.symm)
    exact ⟨_, step_of_imageLength_le hr hL.ge, rfl⟩
  · obtain ⟨hst, hpc⟩ := step_lda_noOperand hwf ⟨hr, hb⟩ hL.ge
    obtain rfl : s.pc + 1#16 = o := BitVec.eq_of_toNat_eq (hpc.trans ho.symm)
    exact ⟨_, hst, rfl⟩

end Sys2Proof.Machine
end

section
/-! PROOFS. The host (10_state.md section 7): START, RESET and a register write keep the invariant, and what the host may
read and write in each run state. -/

namespace Sys2Proof.Machine

/-- START binds an image of the canonical form and puts PC at its first byte; FR was none in HALTED. -/
theorem State.Inv.bindAndRun {s : State} {prog : List Byte} (hInv : s.Inv) (hr : s.rs = .halted)
    (hlen : prog.length ≤ Config.maxImageLength) : (s.bindAndRun prog).Inv :=
  ⟨State.bindAndRun_imageWf hlen s, by simp [State.pcInImage], by simp [State.faultRecordOk, hInv.halted hr]⟩

/-- In HALTED the invariant is about RS, FR and the image alone, so a host may write any register. -/
theorem State.Inv.preset {s : State} (hInv : s.Inv) (hr : s.rs = .halted) (w : HostWrite) : (s.preset w).Inv := by
  obtain ⟨hrs, hfr, himg⟩ := s.preset_frame w
  rw [hr] at hrs
  rw [hInv.halted hr] at hfr
  rw [hInv.notRunning (by simp [hr])] at himg
  exact ⟨by simp [State.imageWf, himg], by simp [State.pcInImage, hrs, himg], by simp [State.faultRecordOk, hrs, hfr]⟩

/-- Settles O4, one event at a time. -/
theorem hostEventsKeepInv : Obligations.HostEventsKeepInv := by
  intro e s t hne hInv h
  cases e with
  | reset => cases h; exact invHoldsAtReset
  | start prog =>
    obtain ⟨hr, hlen, rfl⟩ := start_next.mp h
    exact hInv.bindAndRun hr hlen
  | step => exact absurd rfl hne
  | write w =>
    obtain ⟨hr, rfl⟩ := hostWrite_next.mp h
    exact hInv.preset hr w

theorem hostRead_of_not_running {s : State} (hr : s.rs ≠ .running) : hostRead s = .ok s.view := by
  cases hs : s.rs <;> simp_all [hostRead]

theorem start_preset_pc {s : State} (hr : s.rs = .halted) (v : Offset) (prog : List Byte) :
    start prog (s.preset (.pc v)) = start prog s := by
  have hr' : (s.preset (.pc v)).rs = .halted := hr
  simp only [start, hr, hr']
  rfl

/-- Settles O31: a write is enabled in HALTED only, and then is one preset. -/
theorem hostAccessByRunState : Obligations.HostAccessByRunState := by
  refine ⟨fun s hr => ?halted, fun s => hostRead_of_not_running, fun s hr => ?running, fun s t w hr h => ?written,
    fun s t e hr h => ?faulted⟩
  case halted =>
    have write (w : HostWrite) : hostWrite w s = .next (s.preset w) := hostWrite_next.mpr ⟨hr, rfl⟩
    exact ⟨fun v => write (.a v), fun v => write (.x v), fun v => write (.y v), fun v => write (.pc v),
      fun v => write (.sp v), fun v => write (.p v), start_preset_pc hr⟩
  case running => simp only [hostRead, hr]
  case written =>
    obtain ⟨hHalted, -⟩ := hostWrite_next.mp h
    exact hr hHalted
  case faulted => exact ((onlyResetAfterFault s hr e t).mp h).1

end Sys2Proof.Machine
end

section
/-! PROOFS. The wraparound law of INX (44_inx_increment.md R126): a row of INX bytes, one STEP at a time. -/

namespace Sys2Proof.Machine

/-- Z and N are those of the X at hand, as any INX leaves them (R125). -/
def State.flagsFollowX (s : State) : Prop :=
  zeroFlag s.p = decide (s.x = 0x00#8) ∧ negativeFlag s.p = s.x.getLsbD 7

theorem State.flagsFollowX_flagsFrom_x (s : State) : (s.flagsFrom s.x).flagsFollowX :=
  ⟨zeroFlag_updateZN s.x s.p, negativeFlag_updateZN s.x s.p⟩

/-- `k` INX in a row add `k` to X on 8 bits. The flags follow X after the last of them, and where there is none they
follow it as long as they did before. -/
theorem core_run_inx {k : Nat} {s : State} (hInv : s.Inv) (hr : s.rs = .running)
    (hb : ∀ j, j < k → s.imageByte (s.pc.toNat + j) = some 0xE8#8) :
    ∃ t, Host.Core.run core k s = .next t ∧ t.x = s.x + BitVec.ofNat 8 k ∧ t.pc.toNat = s.pc.toNat + k ∧
      (0 < k ∨ s.flagsFollowX → t.flagsFollowX) := by
  induction k generalizing s with
  | zero => exact ⟨s, rfl, (BitVec.add_zero s.x).symm, rfl, fun h => h.resolve_left (Nat.lt_irrefl 0)⟩
  | succ k ih =>
    have hop : s.imageByte s.pc.toNat = some 0xE8#8 := hb 0 (Nat.succ_pos k)
    have ⟨hwf, _, _⟩ := hInv
    have hst := step_inx hwf ⟨hr, hop⟩
    obtain ⟨-, -, hpc⟩ := State.fetch_of_byte hwf hop
    obtain ⟨t, hrun, hx, htpc, hflags⟩ := ih (everyStepKeepsInv s _ hInv hst) hr fun j hj => by
      have hnext := hb (j + 1) (Nat.succ_lt_succ hj)
      rw [Nat.add_comm j, ← Nat.add_assoc] at hnext
      simpa [hpc] using hnext
    refine ⟨t, (core_run_succ hst).trans hrun, ?_, ?_, fun _ => ?_⟩
    · rw [hx, Nat.add_comm k, BitVec.ofNat_add, ← BitVec.add_assoc]
      rfl
    · rw [htpc]
      simp only [State.flagsFrom_pc, State.setX_pc, State.setPc_pc, hpc]
      omega
    · exact hflags (.inr (State.flagsFollowX_flagsFrom_x _))

/-- Settles O21: X counts modulo 256, and of the positive numbers up to 256 only 256 itself leaves a byte as it was. -/
theorem inxWraparoundLaw : Obligations.InxWraparoundLaw := by
  intro k s hInv hr hb
  obtain ⟨t, hrun, hx, hpc, hflags⟩ := core_run_inx hInv hr hb
  have hcount : t.x.toNat = (s.x.toNat + k) % 256 := by simp [hx, BitVec.toNat_add]
  have hbyte : s.x.toNat < 256 := s.x.isLt
  refine ⟨t, hrun, hcount, hpc, fun hk => hflags (.inl hk), fun hk => ?_, fun ⟨hpos, hlt⟩ hsame => ?_⟩
  · exact BitVec.eq_of_toNat_eq (by omega)
  · rw [hsame] at hcount
    omega

end Sys2Proof.Machine
end

section
/-! PROOFS. What the fetch half of a STEP reads, from any state whatever: the image and PC, and of the state it writes PC
only. Hence no STEP reads Y, SP or P, or leaves another image than the one it found or none. -/

namespace Sys2Proof.Machine

/-! ## The fetch half reads the image and PC only -/

/-- What was fetched, with `u` in place of the state it was fetched from: `u` with PC moved in the same way. -/
def Fetched.over {α : Type} (u : State) : Fetched α → Fetched α
  | .got v t => .got v (u.setPc t.pc)
  | .raised f t => .raised f (u.setPc t.pc)
  | .refused why => .refused why

theorem State.setPc_self {u : State} {v : Offset} (h : u.pc = v) : u.setPc v = u := by
  subst h
  rfl

@[simp] theorem Fetched.over_setPc {α : Type} (r : Fetched α) (u : State) (v : Offset) :
    r.over (u.setPc v) = r.over u := by
  cases r <;> rfl

theorem State.imageLength_congr {s u : State} (h : u.image = s.image) : u.imageLength = s.imageLength := by
  simp only [State.imageLength, h]

theorem State.memRead_congr {s u : State} (himg : u.image = s.image) (addr : Offset) :
    u.memRead addr = s.memRead addr := by
  rw [State.memRead, State.memRead, State.imageLength_congr himg, State.imageByte_congr himg]

theorem State.fetch_over {s u : State} (himg : u.image = s.image) (hpc : u.pc = s.pc) :
    u.fetch = s.fetch.over u := by
  simp only [State.fetch, State.memRead_congr himg, hpc]
  cases s.memRead s.pc with
  | error f => simp only [Fetched.over, State.setPc_self hpc]
  | ok b => by_cases hmax : s.pc = 0xFFFF#16 <;> simp [hmax, Fetched.over]

/-- A fetch leaves the image it read from. -/
theorem State.image_of_fetch_got {s t : State} {b : Byte} (h : s.fetch = .got b t) : t.image = s.image := by
  have hself := State.fetch_over (s := s) (u := s) rfl rfl
  rw [h] at hself
  injection hself with _ ht
  rw [ht]
  rfl

theorem State.fetchOperand_over {s u : State} (himg : u.image = s.image) (hpc : u.pc = s.pc) (op : Opcode) :
    u.fetchOperand op = (s.fetchOperand op).over u := by
  have himplied (i : Instr) : u.implied i = (s.implied i).over u := by
    simp only [State.implied, Fetched.over, State.setPc_self hpc]
  cases op with
  | brk => exact himplied .brk
  | ldaImm =>
    simp only [State.fetchOperand, State.fetchImmediate, State.fetch_over himg hpc]
    cases s.fetch <;> rfl
  | tax => exact himplied .tax
  | inx => exact himplied .inx
  | unimplemented b => exact himplied (.unimplemented b)

theorem State.fetchInstr_over {s u : State} (himg : u.image = s.image) (hpc : u.pc = s.pc) :
    u.fetchInstr = s.fetchInstr.over u := by
  simp only [State.fetchInstr, State.fetch_over himg hpc]
  cases hf : s.fetch with
  | got op t =>
    have himg' : (u.setPc t.pc).image = t.image := himg.trans (State.image_of_fetch_got hf).symm
    exact (State.fetchOperand_over himg' rfl (decodeOpcode op)).trans (Fetched.over_setPc _ u t.pc)
  | raised f t => rfl
  | refused why => rfl

/-- A STEP runs a handler or takes a fault, at the state with PC moved; from another state with the same image, PC and
RS it runs the same handler or takes the same fault, with PC moved alike. -/
theorem step_of_same_image_pc_rs {s u t : State} (himg : u.image = s.image) (hpc : u.pc = s.pc) (hrs : u.rs = s.rs)
    (h : step s = .next t) :
    (∃ i pc w, exec i (s.setPc pc) = .next w ∧ t = w.atEndOfRun ∧ step u = releaseEnded (exec i (u.setPc pc))) ∨
    (∃ f pc, t = ((s.setPc pc).takeFault f).atEndOfRun ∧
      step u = releaseEnded (.next ((u.setPc pc).takeFault f))) := by
  have hr := step_next_running h
  have hself := State.fetchInstr_over (s := s) (u := s) rfl rfl
  rw [step_running hr, hself] at h
  rw [step_running (hrs.trans hr), State.fetchInstr_over himg hpc]
  obtain ⟨w, hw, rfl⟩ := releaseEnded_eq_next h
  cases hf : s.fetchInstr with
  | got i v =>
    rw [hf] at hw
    exact .inl ⟨i, v.pc, w, hw, rfl, rfl⟩
  | raised f v =>
    rw [hf] at hw
    cases hw
    exact .inr ⟨f, v.pc, rfl, rfl⟩
  | refused why =>
    rw [hf] at hw
    cases hw

/-! ## Noninterference -/

theorem exec_withYSp {i : Instr} {s t : State} (h : exec i s = .next t) (y : Byte) (sp : Offset) :
    exec i (s.withYSp y sp) = .next (t.withYSp y sp) := by
  cases i with
  | brk => rw [exec_brk] at h; cases h; rfl
  | lda m => rw [exec_lda] at h; cases h; rfl
  | tax => rw [exec_tax] at h; cases h; rfl
  | inx => rw [exec_inx] at h; cases h; rfl
  | unimplemented b => rw [exec_unimplemented] at h; cases h; rfl

theorem State.atEndOfRun_withYSp (s : State) (y : Byte) (sp : Offset) :
    (s.withYSp y sp).atEndOfRun = s.atEndOfRun.withYSp y sp := by
  obtain ⟨_, _, _, _, _, _, rs, _, _⟩ := s
  cases rs <;> rfl

/-- Settles O40: the fetch half, every handler, fault entry and the end of the run all pass Y and SP on. -/
theorem yAndSpAreInert : Obligations.YAndSpAreInert := by
  intro s t y sp h
  rcases step_of_same_image_pc_rs (s := s) (u := s.withYSp y sp) rfl rfl rfl h with
    ⟨i, pc, w, hw, rfl, hst⟩ | ⟨f, pc, rfl, hst⟩
  · have hexec : exec i ((s.withYSp y sp).setPc pc) = .next (w.withYSp y sp) := exec_withYSp hw y sp
    rw [hst, hexec, ← State.atEndOfRun_withYSp]
    rfl
  · rw [hst, ← State.atEndOfRun_withYSp]
    rfl

/-- The P a handler leaves depends on the P it found, and nothing else it leaves does. -/
theorem exec_withP {i : Instr} {s t : State} (h : exec i s = .next t) (p : Byte) :
    ∃ q, exec i (s.withP p) = .next (t.withP q) := by
  cases i with
  | brk => rw [exec_brk] at h; cases h; exact ⟨p, rfl⟩
  | lda m => rw [exec_lda] at h; cases h; exact ⟨updateZN m p, rfl⟩
  | tax => rw [exec_tax] at h; cases h; exact ⟨updateZN s.a p, rfl⟩
  | inx => rw [exec_inx] at h; cases h; exact ⟨updateZN (s.x + 1#8) p, rfl⟩
  | unimplemented b => rw [exec_unimplemented] at h; cases h; exact ⟨p, rfl⟩

theorem State.atEndOfRun_withP (s : State) (p : Byte) : (s.withP p).atEndOfRun = s.atEndOfRun.withP p := by
  obtain ⟨_, _, _, _, _, _, rs, _, _⟩ := s
  cases rs <;> rfl

/-- Settles O41: only the handlers touch P, and they use the old one for the new one alone. -/
theorem statusFlagsAreNeverRead : Obligations.StatusFlagsAreNeverRead := by
  intro s t p h
  rcases step_of_same_image_pc_rs (s := s) (u := s.withP p) rfl rfl rfl h with
    ⟨i, pc, w, hw, rfl, hst⟩ | ⟨f, pc, rfl, hst⟩
  · obtain ⟨q, hexec⟩ : ∃ q, exec i ((s.withP p).setPc pc) = .next (w.withP q) := exec_withP hw p
    refine ⟨q, ?_⟩
    rw [hst, hexec, ← State.atEndOfRun_withP]
    rfl
  · refine ⟨p, ?_⟩
    rw [hst, ← State.atEndOfRun_withP]
    rfl

/-! ## The image in a STEP -/

theorem exec_image {i : Instr} {s t : State} (h : exec i s = .next t) : t.image = s.image := by
  cases i with
  | brk => rw [exec_brk] at h; cases h; rfl
  | lda m => rw [exec_lda] at h; cases h; rfl
  | tax => rw [exec_tax] at h; cases h; rfl
  | inx => rw [exec_inx] at h; cases h; rfl
  | unimplemented b => rw [exec_unimplemented] at h; cases h; rfl

/-- A STEP passes the image on, to the end of the run, which takes it (R175). -/
theorem step_image {s t : State} (h : step s = .next t) :
    (t.rs = .running → t.image = s.image) ∧ (t.rs ≠ .running → t.image = none) := by
  obtain ⟨w, himg, rfl⟩ : ∃ w : State, w.image = s.image ∧ t = w.atEndOfRun := by
    rcases step_of_same_image_pc_rs rfl rfl rfl h with ⟨i, pc, w, hw, ht, -⟩ | ⟨f, pc, ht, -⟩
    · exact ⟨w, (exec_image hw :), ht⟩
    · exact ⟨(s.setPc pc).takeFault f, rfl, ht⟩
  rw [State.atEndOfRun_rs]
  refine ⟨fun hr => ?_, fun hr => ?_⟩
  · rw [State.atEndOfRun_running hr, himg]
  · rw [State.atEndOfRun_ended hr, State.releaseImage_image]

end Sys2Proof.Machine
end

section
/-! PROOFS. Whole runs (40_fetch_dispatch_flags.md section 7): the registers at the end of a run are what the straight
line of its instructions makes of those at its start, and the run ends as that line does. What a run cannot change, where
it ends and what it never reads follow from the line alone. -/

namespace Sys2Proof.Machine

/-! ## The straight line -/

/-- The registers that a run hands from one instruction to the next. -/
structure Registers where
  a : Byte
  x : Byte
  y : Byte
  sp : Offset
  p : Byte

def State.registers (s : State) : Registers := ⟨s.a, s.x, s.y, s.sp, s.p⟩

/-- What an instruction makes of the registers; that its handler does so is `registers_of_exec`. -/
def Registers.after (r : Registers) : Instr → Registers
  | .brk => r
  | .lda m => { r with a := m, p := updateZN m r.p }
  | .tax => { r with x := r.a, p := updateZN r.a r.p }
  | .inx => { r with x := r.x + 1#8, p := updateZN (r.x + 1#8) r.p }
  | .unimplemented _ => r

theorem registers_of_exec {i : Instr} {s t : State} (h : exec i s = .next t) :
    t.registers = s.registers.after i := by
  cases i with
  | brk => rw [exec_brk] at h; cases h; rfl
  | lda m => rw [exec_lda] at h; cases h; rfl
  | tax => rw [exec_tax] at h; cases h; rfl
  | inx => rw [exec_inx] at h; cases h; rfl
  | unimplemented b => rw [exec_unimplemented] at h; cases h; rfl

/-- The bytes still ahead of a run. -/
def State.rest (s : State) : List Byte := s.bytesFrom s.pc.toNat

@[simp] theorem State.bindAndRun_rest (s : State) (prog : List Byte) : (s.bindAndRun prog).rest = prog :=
  State.bindAndRun_bytesFrom s prog 0

/-- The registers at the end of the straight line ahead. -/
def State.registersAhead (s : State) : Registers := (executed s.rest).foldl Registers.after s.registers

/-- What no instruction on the line ahead changes is at its end what it is now. -/
theorem State.registersAhead_keeps {β : Type} {s : State} (f : Registers → β)
    (h : ∀ i ∈ executed s.rest, ∀ r : Registers, f (r.after i) = f r) : f s.registersAhead = f s.registers :=
  List.foldlRecOn (motive := fun r => f r = f s.registers) (executed s.rest) Registers.after rfl
    fun r hr i hi => (h i hi r).trans hr

theorem Registers.after_y (r : Registers) (i : Instr) : (r.after i).y = r.y := by cases i <;> rfl

theorem Registers.after_sp (r : Registers) (i : Instr) : (r.after i).sp = r.sp := by cases i <;> rfl

theorem Registers.reservedBits_after (r : Registers) (i : Instr) : reservedBits (r.after i).p = reservedBits r.p := by
  cases i with
  | brk => rfl
  | lda m => exact reservedBits_updateZN m r.p
  | tax => exact reservedBits_updateZN r.a r.p
  | inx => exact reservedBits_updateZN (r.x + 1#8) r.p
  | unimplemented b => rfl

theorem Registers.after_a {i : Instr} (h : ∀ m, i ≠ .lda m) (r : Registers) : (r.after i).a = r.a := by
  cases i with
  | lda m => exact absurd rfl (h m)
  | brk | tax | inx | unimplemented => rfl

theorem Registers.after_x {i : Instr} (htax : i ≠ .tax) (hinx : i ≠ .inx) (r : Registers) : (r.after i).x = r.x := by
  cases i with
  | tax => exact absurd rfl htax
  | inx => exact absurd rfl hinx
  | brk | lda | unimplemented => rfl

theorem Registers.after_p {i : Instr} (hlda : ∀ m, i ≠ .lda m) (htax : i ≠ .tax) (hinx : i ≠ .inx) (r : Registers) :
    (r.after i).p = r.p := by
  cases i with
  | lda m => exact absurd rfl (hlda m)
  | tax => exact absurd rfl htax
  | inx => exact absurd rfl hinx
  | brk | unimplemented => rfl

/-! ## One STEP on the line -/

/-- A STEP that does not fault moves PC on, and none moves it past L (R101). -/
theorem step_pc {s t : State} (hInv : s.Inv) (h : step s = .next t) :
    (t.rs ≠ .faulted → s.pc.toNat + 1 ≤ t.pc.toNat) ∧ t.pc.toNat ≤ s.imageLength := by
  have hr := step_next_running h
  obtain ⟨hwf, -, hle, -⟩ := State.Inv.running hr hInv
  have pcSucc {b : Byte} (hb : s.imageByte s.pc.toNat = some b) :
      s.pc.toNat < s.imageLength ∧ (s.pc + 1#16).toNat = s.pc.toNat + 1 := (State.fetch_of_byte hwf hb).2
  rcases step_wf hr hwf with ⟨-, hst⟩ | ⟨hb, hst⟩ | ⟨hb, hst⟩ | ⟨hb, hst⟩ | ⟨b, -, hb, hst⟩ | ⟨hb, -, hst⟩ |
    ⟨m, hb, -, hL, hpc, hst⟩
  all_goals rw [hst] at h; cases h
  · simp [hle]
  · simp [pcSucc hb]
  · simp [pcSucc hb]
  · simp [pcSucc hb]
  · simp [pcSucc hb]
  · simp [pcSucc hb]
  · simp [hpc, hL]

/-- From `s`, in a run, the run ends in `t`: as the straight line ahead says. -/
structure EndsRun (s t : State) : Prop where
  inv : t.Inv
  ended : t.rs ≠ .running
  pc_le : t.pc.toNat ≤ s.imageLength
  normalEnd_iff : t.normalEnd ↔ reachesBrk s.rest = true
  registers : t.registers = s.registersAhead

/-- From `s`, in a run, the run goes on in `t`: with a part of the line behind it and the same end ahead. -/
structure GoesOn (s t : State) : Prop where
  inv : t.Inv
  running : t.rs = .running
  pc_lt : s.pc.toNat < t.pc.toNat
  imageLength : t.imageLength = s.imageLength
  reachesBrk_rest : reachesBrk t.rest = reachesBrk s.rest
  registersAhead : t.registersAhead = s.registersAhead

theorem EndsRun.of_goesOn {s u t : State} (hgo : GoesOn s u) (hend : EndsRun u t) : EndsRun s t where
  inv := hend.inv
  ended := hend.ended
  pc_le := hgo.imageLength ▸ hend.pc_le
  normalEnd_iff := hgo.reachesBrk_rest ▸ hend.normalEnd_iff
  registers := hend.registers.trans hgo.registersAhead

/-- Every STEP of a run ends it or goes on with it. -/
theorem endsRun_or_goesOn_of_step {s t : State} (hInv : s.Inv) (h : step s = .next t) :
    EndsRun s t ∨ GoesOn s t := by
  have hr := step_next_running h
  obtain ⟨hwf, -, -, -⟩ := State.Inv.running hr hInv
  have hInv' := everyStepKeepsInv s t hInv h
  obtain ⟨hpc_lt, hpc_le⟩ := step_pc hInv h
  have pcSucc {b : Byte} (hb : s.imageByte s.pc.toNat = some b) : (s.pc + 1#16).toNat = s.pc.toNat + 1 :=
    State.pc_succ hwf (State.imageByte_lt hwf hb)
  have rest {b : Byte} (hb : s.imageByte s.pc.toNat = some b) : s.rest = b :: s.bytesFrom (s.pc.toNat + 1) :=
    State.bytesFrom_cons hwf hb
  have faults (hrs : t.rs = .faulted) (hreach : reachesBrk s.rest = false) (hexec : executed s.rest = [])
      (hregs : t.registers = s.registers) : EndsRun s t ∨ GoesOn s t :=
    .inl ⟨hInv', by simp [hrs], hpc_le, by simp [State.normalEnd, hrs, hreach],
      by rw [State.registersAhead, hexec, hregs]; rfl⟩
  have goesOn {i : Instr} {k : Nat} (hrs : t.rs = .running) (himg : t.image = s.image)
      (hpc : t.pc.toNat = s.pc.toNat + k) (hreach : reachesBrk s.rest = reachesBrk (s.bytesFrom (s.pc.toNat + k)))
      (hexec : executed s.rest = i :: executed (s.bytesFrom (s.pc.toNat + k)))
      (hregs : t.registers = s.registers.after i) : EndsRun s t ∨ GoesOn s t := by
    have hrest : t.rest = s.bytesFrom (s.pc.toNat + k) := by rw [State.rest, State.bytesFrom_congr himg, hpc]
    exact .inr ⟨hInv', hrs, hpc_lt (by simp [hrs]), State.imageLength_congr himg, by rw [hrest, hreach],
      by rw [State.registersAhead, State.registersAhead, hrest, hexec, List.foldl_cons, hregs]⟩
  rcases step_wf hr hwf with ⟨hL, hst⟩ | ⟨hb, hst⟩ | ⟨hb, hst⟩ | ⟨hb, hst⟩ | ⟨b, hun, hb, hst⟩ | ⟨hb, hL, hst⟩ |
    ⟨m, hb, hm, -, hpc, hst⟩
  all_goals rw [hst] at h; cases h
  · have hrest : s.rest = [] := State.bytesFrom_nil hwf hL
    exact faults rfl (by rw [hrest, reachesBrk]) (by rw [hrest, executed]) rfl
  · exact .inl ⟨hInv', by simp, hpc_le, iff_of_true rfl (by rw [rest hb, reachesBrk_brk]),
      by rw [State.registersAhead, rest hb, executed_brk]; rfl⟩
  · exact goesOn hr rfl (pcSucc hb) (by rw [rest hb, reachesBrk_tax]) (by rw [rest hb, executed_tax]) rfl
  · exact goesOn hr rfl (pcSucc hb) (by rw [rest hb, reachesBrk_inx]) (by rw [rest hb, executed_inx]) rfl
  · exact faults rfl (by rw [rest hb, reachesBrk_unimplemented hun]) (by rw [rest hb, executed_unimplemented hun]) rfl
  · have hrest : s.rest = [0xA9#8] := by rw [rest hb, State.bytesFrom_nil hwf hL.le]
    exact faults rfl (by rw [hrest]; decide) (by rw [hrest]; decide) rfl
  · have hrest : s.rest = 0xA9#8 :: m :: s.bytesFrom (s.pc.toNat + 2) := by
      rw [rest hb, State.bytesFrom_cons hwf hm]
    exact goesOn hr rfl hpc (by rw [hrest, reachesBrk_lda]) (by rw [hrest, executed_lda]) rfl

/-- A run with more STEPs to take than bytes ahead ends, and as its line does. -/
theorem runToEnd_endsRun {n : Nat} {s : State} (hInv : s.Inv) (hr : s.rs = .running)
    (hn : s.imageLength < s.pc.toNat + n) : ∃ t, runToEnd n s = .next t ∧ EndsRun s t := by
  induction n generalizing s with
  | zero =>
    obtain ⟨-, -, hle, -⟩ := State.Inv.running hr hInv
    omega
  | succ n ih =>
    obtain ⟨u, hst⟩ := exists_step_next hInv hr
    rw [runToEnd_succ n hst]
    rcases endsRun_or_goesOn_of_step hInv hst with hend | hgo
    · exact ⟨u, runToEnd_not_running hend.ended n, hend⟩
    · have hpc := hgo.pc_lt
      obtain ⟨t, hrun, hend⟩ := ih hgo.inv hgo.running (by rw [hgo.imageLength]; omega)
      exact ⟨t, hrun, .of_goesOn hgo hend⟩

end Sys2Proof.Machine
end

section
/-! PROOFS. The end of every run (40_fetch_dispatch_flags.md R101 to R105): where it is, what it hands back, what it
cannot have changed and what it never read. -/

namespace Sys2Proof.Machine

/-! ## The end of a run -/

/-- START and the STEPs after it always come to the end of the line of the program. -/
theorem interpret_endsRun {prog : List Byte} {s : State} (hInv : s.Inv) (hr : s.rs = .halted)
    (hlen : prog.length ≤ Config.maxImageLength) :
    ∃ t, interpret prog s = .next t ∧ EndsRun (s.bindAndRun prog) t := by
  obtain ⟨t, hrun, hend⟩ := runToEnd_endsRun (n := prog.length + 1) (hInv.bindAndRun hr hlen) rfl (by simp)
  exact ⟨t, interpret_next.mpr ⟨hr, hlen, hrun⟩, hend⟩

theorem endsRun_of_interpret {prog : List Byte} {s t : State} (hInv : s.Inv) (h : interpret prog s = .next t) :
    EndsRun (s.bindAndRun prog) t := by
  obtain ⟨hr, hlen, -⟩ := interpret_next.mp h
  obtain ⟨u, hrun, hend⟩ := interpret_endsRun hInv hr hlen
  cases h.symm.trans hrun
  exact hend

/-- The STEPs of a run, counted. -/
theorem exists_core_run_of_runToEnd {n : Nat} {s t : State} (h : runToEnd n s = .next t) :
    ∃ k, k ≤ n ∧ Host.Core.run core k s = .next t := by
  induction n generalizing s with
  | zero => exact ⟨0, Nat.le_refl 0, h⟩
  | succ n ih =>
    by_cases hr : s.rs = .running
    · simp only [runToEnd, hr] at h
      split at h
      next u hst =>
        obtain ⟨k, hk, hrun⟩ := ih h
        exact ⟨k + 1, Nat.succ_le_succ hk, (core_run_succ hst).trans hrun⟩
      all_goals cases h
    · rw [runToEnd_not_running hr] at h
      exact ⟨0, Nat.zero_le _, h⟩

/-- Settles O34: PC rises to L at most, so one STEP more than the image has bytes is enough. -/
theorem everyRunEnds : Obligations.EveryRunEnds := by
  refine ⟨fun prog s hInv hr hlen => ?run, fun s t hInv hr h => ?step⟩
  case run =>
    obtain ⟨t, hrun, hend⟩ := interpret_endsRun hInv hr hlen
    obtain ⟨-, -, hsteps⟩ := interpret_next.mp hrun
    obtain ⟨n, hn, hcore⟩ := exists_core_run_of_runToEnd hsteps
    have hpc : t.pc.toNat ≤ prog.length := by simpa using hend.pc_le
    exact ⟨_, t, n, start_next.mpr ⟨hr, hlen, rfl⟩, hn, hcore, hend.ended, hpc, hrun⟩
  case step =>
    obtain ⟨hlt, hle⟩ := step_pc hInv h
    refine ⟨hlt, hle, fun hL => ?_⟩
    rw [step_of_imageLength_le hr hL.ge] at h
    cases h
    exact ⟨rfl, rfl⟩

/-- Settles O35. -/
theorem normalEndIffReachesBrk : Obligations.NormalEndIffReachesBrk := by
  intro prog s hInv hr hlen
  obtain ⟨t, hrun, hend⟩ := interpret_endsRun hInv hr hlen
  have hiff : t.normalEnd ↔ reachesBrk prog = true := by simpa using hend.normalEnd_iff
  rw [← hiff]
  constructor
  · rintro ⟨u, hu, hnormal⟩
    cases hrun.symm.trans hu
    exact hnormal
  · exact fun hnormal => ⟨t, hrun, hnormal⟩

/-- Settles O42. -/
theorem imageIsReleasedAtEndOfRun : Obligations.ImageIsReleasedAtEndOfRun := by
  refine ⟨fun s t => step_image, fun prog s t hInv h => ?_⟩
  have hend := endsRun_of_interpret hInv h
  exact ⟨hend.inv.notRunning hend.ended, hostRead_of_not_running hend.ended⟩

/-! ## What a run cannot change -/

theorem running_of_core_run {k : Nat} {s t : State} (h : Host.Core.run core k s = .next t) (ht : t.rs = .running) :
    s.rs = .running := by
  cases k with
  | zero => cases h; exact ht
  | succ k =>
    simp only [Host.Core.run] at h
    split at h
    next u hst => exact step_next_running hst
    all_goals cases h

/-- As long as the run goes on the image is the one that START bound. -/
theorem image_of_core_run {k : Nat} {s t : State} (h : Host.Core.run core k s = .next t) (ht : t.rs = .running) :
    t.image = s.image := by
  induction k generalizing s with
  | zero => cases h; rfl
  | succ k ih =>
    simp only [Host.Core.run] at h
    split at h
    next u hst =>
      have hu := (step_image hst).1 (running_of_core_run h ht)
      exact (ih h).trans hu
    all_goals cases h

/-- Settles O37: each register is kept by every instruction on the line but those that write it. -/
theorem runFrame : Obligations.RunFrame := by
  intro prog s t hInv h
  have hend := endsRun_of_interpret hInv h
  have keeps {β : Type} (f : Registers → β) (hf : ∀ i ∈ executed prog, ∀ r : Registers, f (r.after i) = f r) :
      f t.registers = f s.registers := by
    rw [hend.registers]
    exact State.registersAhead_keeps f (by rwa [State.bindAndRun_rest])
  have noLda (hno : ¬ ∃ m, Instr.lda m ∈ executed prog) {i : Instr} (hi : i ∈ executed prog) (m : Byte) : i ≠ .lda m :=
    fun him => hno ⟨m, him ▸ hi⟩
  refine ⟨keeps (·.y) fun i _ r => r.after_y i, keeps (·.sp) fun i _ r => r.after_sp i,
    keeps (reservedBits ·.p) fun i _ r => r.reservedBits_after i, fun hne => ?a, fun hne => ?x, fun hne => ?p,
    by simpa using hend.pc_le, fun u v n hstart hrun hr => ?image⟩
  case a =>
    by_contra hno
    exact hne (keeps (·.a) fun i hi => Registers.after_a (noLda hno hi))
  case x =>
    by_contra hno
    obtain ⟨htax, hinx⟩ := not_or.mp hno
    exact hne (keeps (·.x) fun i hi => Registers.after_x (ne_of_mem_of_not_mem hi htax) (ne_of_mem_of_not_mem hi hinx))
  case p =>
    by_contra hno
    obtain ⟨hlda, hno⟩ := not_or.mp hno
    obtain ⟨htax, hinx⟩ := not_or.mp hno
    exact hne (keeps (·.p) fun i hi =>
      Registers.after_p (noLda hlda hi) (ne_of_mem_of_not_mem hi htax) (ne_of_mem_of_not_mem hi hinx))
  case image =>
    obtain ⟨-, -, rfl⟩ := start_next.mp hstart
    have himg := image_of_core_run hrun hr
    exact ⟨himg, (State.bytesFrom_congr himg 0).trans (State.bindAndRun_bytesFrom s prog 0),
      (State.imageLength_congr himg).trans (State.bindAndRun_imageLength s prog)⟩

/-! ## Bytes after the BRK -/

/-- A line that reaches a BRK ends there, whatever bytes follow. -/
theorem line_append_of_reachesBrk (prog extra : List Byte) (h : reachesBrk prog = true) :
    reachesBrk (prog ++ extra) = true ∧ executed (prog ++ extra) = executed prog := by
  induction prog using reachesBrk.induct with
  | case1 => cases h
  | case2 op rest hd =>
    obtain rfl := eq_byte_of_decodeOpcode hd
    simp [Opcode.byte, reachesBrk_brk, executed_brk]
  | case3 op hd =>
    obtain rfl := eq_byte_of_decodeOpcode hd
    cases h
  | case4 op hd m rest ih =>
    obtain rfl := eq_byte_of_decodeOpcode hd
    rw [Opcode.byte, reachesBrk_lda] at h
    simp [Opcode.byte, reachesBrk_lda, executed_lda, ih h]
  | case5 op rest hd ih =>
    obtain rfl := eq_byte_of_decodeOpcode hd
    rw [Opcode.byte, reachesBrk_tax] at h
    simp [Opcode.byte, reachesBrk_tax, executed_tax, ih h]
  | case6 op rest hd ih =>
    obtain rfl := eq_byte_of_decodeOpcode hd
    rw [Opcode.byte, reachesBrk_inx] at h
    simp [Opcode.byte, reachesBrk_inx, executed_inx, ih h]
  | case7 op rest b hd =>
    obtain ⟨-, hun⟩ := decodeOpcode_eq_unimplemented.mp hd
    rw [reachesBrk_unimplemented hun] at h
    cases h

/-- Settles O39: the line up to the BRK gives the registers, and the bytes it consumes give PC. -/
theorem bytesAfterBrkAreNeverRead : Obligations.BytesAfterBrkAreNeverRead := by
  intro prog extra s t hInv h hnormal hlen
  have hend := endsRun_of_interpret hInv h
  obtain ⟨hr, -, -⟩ := interpret_next.mp h
  obtain ⟨u, hu, hendu⟩ := interpret_endsRun hInv hr hlen
  have hreach : reachesBrk prog = true := by simpa using hend.normalEnd_iff.mp hnormal
  obtain ⟨hreach', hexec⟩ := line_append_of_reachesBrk prog extra hreach
  have hnormal' : u.normalEnd := hendu.normalEnd_iff.mpr (by simpa using hreach')
  have hregs : u.registers = t.registers := by
    rw [hendu.registers, hend.registers, State.registersAhead, State.registersAhead, State.bindAndRun_rest,
      State.bindAndRun_rest, hexec]
    rfl
  have hpc : u.pc = t.pc := by
    obtain ⟨hcount, -⟩ := pcAtNormalEndCountsBytes.1 prog s t hInv h hnormal
    obtain ⟨hcount', -⟩ := pcAtNormalEndCountsBytes.1 (prog ++ extra) s u hInv hu hnormal'
    rw [hexec] at hcount'
    exact BitVec.eq_of_toNat_eq (hcount'.trans hcount.symm)
  have hfr : u.fr = t.fr := (hendu.inv.halted hnormal').trans (hend.inv.halted hnormal).symm
  have hrs : u.rs = t.rs := Eq.trans hnormal' hnormal.symm
  refine ⟨u, hu, ?_⟩
  injection hregs with ha hx hy hsp hp
  simp only [State.view, ha, hx, hy, hpc, hsp, hp, hfr, hrs]

end Sys2Proof.Machine
end
